-- ==== Sys2Proof/Word.lean ====
section
/-! DEFINITION. The word types of the core (spec/00_scope.md rules R5, R7, R11). -/

namespace Sys2Proof

/-- An 8-bit value: a general register, a timer, a memory cell, the immediate NN (R5, R11). -/
abbrev Byte := BitVec 8

/-- A 16-bit value: I, PC, a stack entry, an instruction word (R5, R90). -/
abbrev Word := BitVec 16

/-- A 12-bit immediate address, the field NNN (R11). -/
abbrev Addr := BitVec 12

/-- A register index, the field X or Y (R22). -/
abbrev Reg := Fin 16

/-- The 4-bit row-count field N of DXYN (R93). -/
abbrev Count := Fin 16

end Sys2Proof
end

