-- ==== Sys2Proof/Machine/Flags.lean ====
section
/-! DEFINITION. The values the instructions of spec/10_state.md rule R26 write to VF. -/

namespace Sys2Proof.Machine

/-- A condition as the value 1 or 0. -/
def flagByte (b : Bool) : Byte := if b then 1 else 0

/-- 8XY4: 1 if the unbounded sum exceeds 255 (R156, R162). -/
def carryFlag (a b : Byte) : Byte := flagByte (decide (a.toNat + b.toNat > 255))

/-- 8XY5 and 8XY7: 1 if the minuend is at least the subtrahend, "no borrow" (R157, R159, R162). -/
def noBorrowFlag (minuend subtrahend : Byte) : Byte := flagByte (decide (minuend.toNat ≥ subtrahend.toNat))

/-- 8XY6: the bit shifted out, 0 or 1 (R158). -/
def shrFlag (a : Byte) : Byte := a &&& 0x01

/-- 8XYE: the raw masked bit, 0x00 or 0x80, not normalised (R160, C14). -/
def shlFlag (a : Byte) : Byte := a &&& 0x80

/-- DXYN: 1 if any drawn pixel went from set to unset (R243, R245). -/
def collisionFlag (c : Bool) : Byte := flagByte c

end Sys2Proof.Machine
end

