-- ==== Sys2Proof/Config.lean ====
section
/-! DEFINITION. The fixed parameters of this hardware (spec/00_scope.md rule R5) and the free values: what the spec
leaves open is a constant with no body, so that nothing in Lean can evaluate it. The parameters that rule R6 makes
configuration (FONT, SPRITE_ROWS, STRICT_5_9) stand in Sys2Proof/Machine/Params.lean. -/

namespace Sys2Proof.Config

/-- MEM_SIZE: 4096 byte cells, addresses 0x000 to 0xFFF (R5, R49). -/
abbrev memSize : Nat := 4096

/-- STACK_DEPTH: 16 return addresses (R5, R35). -/
abbrev stackDepth : Nat := 16

/-- ENTRY: the reset value of PC and the address a program is loaded at (R5, R341). -/
abbrev entry : Word := 0x200

/-- FB_BASE: the first byte of the framebuffer (R5, R72). -/
abbrev fbBase : Nat := 0xF00

/-- FB_SIZE: 32 rows of 8 bytes (R5). -/
abbrev fbSize : Nat := 256

/-- FB_WIDTH in pixels (R5). -/
abbrev fbWidth : Nat := 64

/-- FB_HEIGHT in pixels (R5). -/
abbrev fbHeight : Nat := 32

/-- GLYPH_BYTES: the bytes of one font glyph (R5). -/
abbrev glyphBytes : Nat := 5

/-! ### Free values
Each takes the draw counter of the state, so that every use is a fresh value. -/

/-- RAND: the byte `rand_in` delivers at the n-th draw, any value 0..255 under no law (R6, R52, R161, D17).
notes/assumptions/2.md. -/
opaque randIn : Nat → Byte

/-! The state after a fault, but for HALTED, FAULT and BEEP, is not defined (R309, U2, U3): each part of it is a free
value. notes/assumptions/1.md. -/

/-- The registers V0..VF after the fault at draw n (R309). -/
opaque lostV : Nat → Vector Byte 16

/-- I after the fault at draw n (R309). -/
opaque lostI : Nat → Word

/-- PC after the fault at draw n (R309: "PC may hold a or a + 2"). -/
opaque lostPc : Nat → Word

/-- SP after the fault at draw n, inside its range 0..16 (R309, R5 SP_RANGE). -/
opaque lostSp : Nat → Fin 17

/-- The stack's entries after the fault at draw n (R309). -/
opaque lostStack : Nat → Vector Word 16

/-- DT after the fault at draw n (R309). -/
opaque lostDt : Nat → Byte

/-- ST after the fault at draw n (R309). -/
opaque lostSt : Nat → Byte

/-- The keypad flags after the fault at draw n (R309). -/
opaque lostKey : Nat → Vector Bool 16

/-- The byte at address a after the fault at draw n (R309, U3). -/
opaque lostByte : Nat → Nat → Byte

/-- DISPLAY_CHANGED after the fault at draw n (R309: "may be 0 or 1"). -/
opaque lostDisplayChanged : Nat → Bool

end Sys2Proof.Config
end

