-- ==== Sys2Proof/Machine/Params.lean ====
section
/-! DEFINITION. The configuration of spec/00_scope.md rule R6: FONT, SPRITE_ROWS and STRICT_5_9, at this spec's
values. -/

namespace Sys2Proof.Config

/-- FONT: glyph after glyph, the digits 0 to F, five bytes each. PRESUMED: the spec supplies the bytes from general
knowledge (R57, D4, G1). notes/assumptions/6.md. -/
def font : List Byte :=
  [0xF0, 0x90, 0x90, 0x90, 0xF0] ++ [0x20, 0x60, 0x20, 0x20, 0x70] ++
  [0xF0, 0x10, 0xF0, 0x80, 0xF0] ++ [0xF0, 0x10, 0xF0, 0x10, 0xF0] ++
  [0x90, 0x90, 0xF0, 0x10, 0x10] ++ [0xF0, 0x80, 0xF0, 0x10, 0xF0] ++
  [0xF0, 0x80, 0xF0, 0x90, 0xF0] ++ [0xF0, 0x10, 0x20, 0x40, 0x40] ++
  [0xF0, 0x90, 0xF0, 0x90, 0xF0] ++ [0xF0, 0x90, 0xF0, 0x10, 0xF0] ++
  [0xF0, 0x90, 0xF0, 0x90, 0x90] ++ [0xE0, 0x90, 0xE0, 0x90, 0xE0] ++
  [0xF0, 0x80, 0x80, 0x80, 0xF0] ++ [0xE0, 0x90, 0x90, 0x90, 0xE0] ++
  [0xF0, 0x80, 0xF0, 0x80, 0xF0] ++ [0xF0, 0x80, 0xF0, 0x80, 0x80]

/-- SPRITE_ROWS: DXYN draws N + 1 rows (R247, D9). notes/assumptions/7.md. -/
def spriteRows (n : Count) : Nat := n.val + 1

/-- STRICT_5_9: 5XYN and 9XYN with N ≠ 0 are invalid (R100, D14). notes/assumptions/8.md. -/
def strict59 : Bool := true

end Sys2Proof.Config
end

