-- ==== Sys2Proof/Syntax.lean ====
section
/-! DEFINITION. The instructions: one constructor per row of spec/opcode_table.json, in the table's order
(spec/30_encoding.md rules R92 and R95). -/

namespace Sys2Proof

/-- The 35 opcode cases of rule R95. `x` and `y` are register indices, `nn` an 8-bit immediate, `nnn` a 12-bit
address, `n` the row-count field (R91, R93). -/
inductive Instr where
  /-- 00E0, clear the display (R241). -/
  | cls
  /-- 00EE, return from subroutine (R182). -/
  | ret
  /-- 0NNN, the unimplemented legacy machine-code call (R181). -/
  | sys (nnn : Addr)
  /-- 1NNN, jump (R183). -/
  | jp (nnn : Addr)
  /-- 2NNN, call subroutine (R184). -/
  | call (nnn : Addr)
  /-- 3XNN, skip if equal to immediate (R186). -/
  | seImm (x : Reg) (nn : Byte)
  /-- 4XNN, skip if not equal to immediate (R187). -/
  | sneImm (x : Reg) (nn : Byte)
  /-- 5XY0, skip if registers equal (R188). -/
  | seReg (x y : Reg)
  /-- 9XY0, skip if registers differ (R189). -/
  | sneReg (x y : Reg)
  /-- 6XNN, load immediate (R150). -/
  | ldImm (x : Reg) (nn : Byte)
  /-- 7XNN, add immediate, no flag (R151). -/
  | addImm (x : Reg) (nn : Byte)
  /-- 8XY0, register copy (R152). -/
  | ldReg (x y : Reg)
  /-- 8XY1, bitwise OR (R153). -/
  | or (x y : Reg)
  /-- 8XY2, bitwise AND (R154). -/
  | and (x y : Reg)
  /-- 8XY3, bitwise exclusive OR (R155). -/
  | xor (x y : Reg)
  /-- 8XY4, add with carry out to VF (R156). -/
  | addReg (x y : Reg)
  /-- 8XY5, VX minus VY, no-borrow flag (R157). -/
  | sub (x y : Reg)
  /-- 8XY7, VY minus VX into VX, no-borrow flag (R159). -/
  | subn (x y : Reg)
  /-- 8XY6, shift VX right by one; `y` is encoded but ignored (R158). -/
  | shr (x y : Reg)
  /-- 8XYE, shift VX left by one; `y` is encoded but ignored (R160). -/
  | shl (x y : Reg)
  /-- ANNN, load index (R211). -/
  | ldI (nnn : Addr)
  /-- BNNN, jump to NNN plus V0 (R190). -/
  | jpV0 (nnn : Addr)
  /-- CXNN, random byte masked by NN (R161). -/
  | rnd (x : Reg) (nn : Byte)
  /-- DXYN, draw a sprite (R243). -/
  | drw (x y : Reg) (n : Count)
  /-- EX9E, skip if the key in VX is pressed (R270). -/
  | skp (x : Reg)
  /-- EXA1, skip if the key in VX is not pressed (R271). -/
  | sknp (x : Reg)
  /-- FX07, read the delay timer (R273). -/
  | ldVxDt (x : Reg)
  /-- FX0A, wait for a key (R272). -/
  | ldVxK (x : Reg)
  /-- FX15, set the delay timer (R274). -/
  | ldDtVx (x : Reg)
  /-- FX18, set the sound timer (R275). -/
  | ldStVx (x : Reg)
  /-- FX1E, add register to index (R212). -/
  | addI (x : Reg)
  /-- FX29, point I at the font glyph of VX (R213). -/
  | ldF (x : Reg)
  /-- FX33, store the decimal digits of VX (R217). -/
  | ldB (x : Reg)
  /-- FX55, store V0..VX (R218). -/
  | ldMemVx (x : Reg)
  /-- FX65, load V0..VX (R219). -/
  | ldVxMem (x : Reg)
  deriving DecidableEq, Repr

end Sys2Proof
end

