-- ==== Sys2Proof/Decode.lean ====
section
/-! DEFINITION. The decoder, total on any word and on any bytes, and the encoder, both written from the formats and the
opcode map of spec/30_encoding.md (rules R90 to R103). -/

namespace Sys2Proof

/-! ### Fields of an instruction word (R91) -/

/-- G = w[15:12], the group (R91). -/
def fieldG (w : Word) : BitVec 4 := w.extractLsb' 12 4

/-- X = w[11:8], a register index (R91). -/
def fieldX (w : Word) : Reg := (w.extractLsb' 8 4).toFin

/-- Y = w[7:4], a register index (R91). -/
def fieldY (w : Word) : Reg := (w.extractLsb' 4 4).toFin

/-- N = w[3:0], the row count or a function code (R91). -/
def fieldN (w : Word) : Count := (w.extractLsb' 0 4).toFin

/-- NN = w[7:0], an immediate or a function code (R91). -/
def fieldNN (w : Word) : Byte := w.extractLsb' 0 8

/-- NNN = w[11:0], an address (R91). -/
def fieldNNN (w : Word) : Addr := w.extractLsb' 0 12

/-- The word of two bytes, the first at the lower address and the more significant (R67). -/
def beWord (hi lo : Byte) : Word := BitVec.ofNat 16 (hi.toNat * 256 + lo.toNat)

/-- w[15:8], the byte a word has at the lower address (R67). -/
def hiByte (w : Word) : Byte := w.extractLsb' 8 8

/-- w[7:0], the byte a word has at the higher address (R67). -/
def loByte (w : Word) : Byte := w.extractLsb' 0 8

/-! ### Decoding -/

/-- Why bytes are no instruction. -/
inductive Reject where
  /-- `w` matches no case of rule R94: the fault InvalidOpcode is raised (R102, R305). Safe: the spec's own fault. -/
  | invalidOpcode (w : Word)
  /-- Fewer than two bytes were given; every instruction is two bytes long (R90). The core never meets this: a fetch
  delivers two bytes or faults (R122). -/
  | truncated
  deriving DecidableEq, Repr

/-- Group 0x8 dispatches on the bottom nibble (R94, R97). -/
def decodeAlu (w : Word) : Except Reject Instr :=
  match (fieldN w).val with
  | 0x0 => .ok (.ldReg (fieldX w) (fieldY w))
  | 0x1 => .ok (.or (fieldX w) (fieldY w))
  | 0x2 => .ok (.and (fieldX w) (fieldY w))
  | 0x3 => .ok (.xor (fieldX w) (fieldY w))
  | 0x4 => .ok (.addReg (fieldX w) (fieldY w))
  | 0x5 => .ok (.sub (fieldX w) (fieldY w))
  | 0x6 => .ok (.shr (fieldX w) (fieldY w))
  | 0x7 => .ok (.subn (fieldX w) (fieldY w))
  | 0xE => .ok (.shl (fieldX w) (fieldY w))
  | _ => .error (.invalidOpcode w)

/-- Group 0xE dispatches on the low byte (R94, R98). -/
def decodeKey (w : Word) : Except Reject Instr :=
  match (fieldNN w).toNat with
  | 0x9E => .ok (.skp (fieldX w))
  | 0xA1 => .ok (.sknp (fieldX w))
  | _ => .error (.invalidOpcode w)

/-- Group 0xF dispatches on the low byte (R94, R99). -/
def decodeMisc (w : Word) : Except Reject Instr :=
  match (fieldNN w).toNat with
  | 0x07 => .ok (.ldVxDt (fieldX w))
  | 0x0A => .ok (.ldVxK (fieldX w))
  | 0x15 => .ok (.ldDtVx (fieldX w))
  | 0x18 => .ok (.ldStVx (fieldX w))
  | 0x1E => .ok (.addI (fieldX w))
  | 0x29 => .ok (.ldF (fieldX w))
  | 0x33 => .ok (.ldB (fieldX w))
  | 0x55 => .ok (.ldMemVx (fieldX w))
  | 0x65 => .ok (.ldVxMem (fieldX w))
  | _ => .error (.invalidOpcode w)

/-- Group 0x0 dispatches on the full word (R96). The 0NNN words are handed on as `sys`, whose meaning is the fault
InvalidOpcode (R181). -/
def decodeGroup0 (w : Word) : Except Reject Instr :=
  if w = 0x00E0 then .ok .cls
  else if w = 0x00EE then .ok .ret
  else .ok (.sys (fieldNNN w))

/-- The low nibble of 5XYN and 9XYN selects an instruction when it is 0, or always if STRICT_5_9 is false (R100). -/
def lowNibbleOk (w : Word) : Bool := (fieldN w).val == 0 || !Config.strict59

/-- The decoder of rule R94. -/
def decode (w : Word) : Except Reject Instr :=
  match (fieldG w).toNat with
  | 0x0 => decodeGroup0 w
  | 0x1 => .ok (.jp (fieldNNN w))
  | 0x2 => .ok (.call (fieldNNN w))
  | 0x3 => .ok (.seImm (fieldX w) (fieldNN w))
  | 0x4 => .ok (.sneImm (fieldX w) (fieldNN w))
  | 0x5 => if lowNibbleOk w then .ok (.seReg (fieldX w) (fieldY w)) else .error (.invalidOpcode w)
  | 0x6 => .ok (.ldImm (fieldX w) (fieldNN w))
  | 0x7 => .ok (.addImm (fieldX w) (fieldNN w))
  | 0x8 => decodeAlu w
  | 0x9 => if lowNibbleOk w then .ok (.sneReg (fieldX w) (fieldY w)) else .error (.invalidOpcode w)
  | 0xA => .ok (.ldI (fieldNNN w))
  | 0xB => .ok (.jpV0 (fieldNNN w))
  | 0xC => .ok (.rnd (fieldX w) (fieldNN w))
  | 0xD => .ok (.drw (fieldX w) (fieldY w) (fieldN w))
  | 0xE => decodeKey w
  | 0xF => decodeMisc w
  | _ => .error (.invalidOpcode w)

/-- Decoding from bytes, in the order they stand in memory: the instruction and the bytes after it (R67, R90). -/
def decodeBytes : List Byte → Except Reject (Instr × List Byte)
  | hi :: lo :: rest =>
    match decode (beWord hi lo) with
    | .ok i => .ok (i, rest)
    | .error r => .error r
  | [_] => .error .truncated
  | [] => .error .truncated

/-! ### Encoding (R92, R95) -/

/-- Format G_NNN: `gggg nnnn nnnn nnnn` (R92). -/
def wordGNNN (g : Nat) (nnn : Addr) : Word := BitVec.ofNat 16 (g * 0x1000 + nnn.toNat)

/-- Formats G_X_NN and G_X_FF: `gggg xxxx nnnn nnnn` (R92). -/
def wordGXNN (g : Nat) (x : Reg) (nn : Byte) : Word := BitVec.ofNat 16 (g * 0x1000 + x.val * 0x100 + nn.toNat)

/-- Formats G_X_Y_F and G_X_Y_N: `gggg xxxx yyyy nnnn` (R92). -/
def wordGXYN (g : Nat) (x y : Reg) (n : Fin 16) : Word :=
  BitVec.ofNat 16 (g * 0x1000 + x.val * 0x100 + y.val * 0x10 + n.val)

/-- The word of an instruction (R95). -/
def encode : Instr → Word
  | .cls => 0x00E0
  | .ret => 0x00EE
  | .sys nnn => wordGNNN 0x0 nnn
  | .jp nnn => wordGNNN 0x1 nnn
  | .call nnn => wordGNNN 0x2 nnn
  | .seImm x nn => wordGXNN 0x3 x nn
  | .sneImm x nn => wordGXNN 0x4 x nn
  | .seReg x y => wordGXYN 0x5 x y 0x0
  | .sneReg x y => wordGXYN 0x9 x y 0x0
  | .ldImm x nn => wordGXNN 0x6 x nn
  | .addImm x nn => wordGXNN 0x7 x nn
  | .ldReg x y => wordGXYN 0x8 x y 0x0
  | .or x y => wordGXYN 0x8 x y 0x1
  | .and x y => wordGXYN 0x8 x y 0x2
  | .xor x y => wordGXYN 0x8 x y 0x3
  | .addReg x y => wordGXYN 0x8 x y 0x4
  | .sub x y => wordGXYN 0x8 x y 0x5
  | .subn x y => wordGXYN 0x8 x y 0x7
  | .shr x y => wordGXYN 0x8 x y 0x6
  | .shl x y => wordGXYN 0x8 x y 0xE
  | .ldI nnn => wordGNNN 0xA nnn
  | .jpV0 nnn => wordGNNN 0xB nnn
  | .rnd x nn => wordGXNN 0xC x nn
  | .drw x y n => wordGXYN 0xD x y n
  | .skp x => wordGXNN 0xE x 0x9E
  | .sknp x => wordGXNN 0xE x 0xA1
  | .ldVxDt x => wordGXNN 0xF x 0x07
  | .ldVxK x => wordGXNN 0xF x 0x0A
  | .ldDtVx x => wordGXNN 0xF x 0x15
  | .ldStVx x => wordGXNN 0xF x 0x18
  | .addI x => wordGXNN 0xF x 0x1E
  | .ldF x => wordGXNN 0xF x 0x29
  | .ldB x => wordGXNN 0xF x 0x33
  | .ldMemVx x => wordGXNN 0xF x 0x55
  | .ldVxMem x => wordGXNN 0xF x 0x65

/-- The bytes of an instruction as they stand in memory, big-endian (R67). -/
def encodeBytes (i : Instr) : List Byte := [hiByte (encode i), loByte (encode i)]

/-- What the decoder reads from an instruction whose bits, numbered as spec/opcode_table.json numbers them, are `w`.
Every instruction is one word, so the bits above the word's 16 play no part, and the bits above `nbits` are 0. -/
def decodeTableWord (nbits w : Nat) : Option Instr :=
  let word : Word := BitVec.ofNat 16 (w % 2 ^ nbits)
  match decodeBytes [hiByte word, loByte word] with
  | .ok (i, _) => some i
  | .error _ => none

end Sys2Proof
end

