-- ==== Sys2Proof/Machine/Memory.lean ====
section
/-! DEFINITION. MEM, the core's one memory of 4096 byte cells (spec/20_memory.md rules R60 and R72), as a list of
(address, byte) pairs: only the cells that differ from the reset contents are listed. -/

namespace Sys2Proof.Machine

/-- MEM as plain data (R49, R60). -/
abbrev Memory := List Host.Cell

/-- What an unlisted address reads as: the reset contents, the font at 0x000-0x04F and 0x00 elsewhere (R57, R72). -/
def background (a : Nat) : Byte := Config.font.getD a 0

/-- The byte at an address (R63). -/
def Memory.read : Memory → Nat → Byte
  | [], a => background a
  | (b, v) :: m, a => if a = b then v else Memory.read m a

/-- Drop what is listed for an address, which then reads as its reset contents. -/
def Memory.erase (m : Memory) (a : Nat) : Memory := m.filter fun c => c.1 != a

/-- List a byte for an address, in the place its address gives it. -/
def Memory.insert : Memory → Nat → Byte → Memory
  | [], a, v => [(a, v)]
  | (b, w) :: m, a, v =>
    if b < a then (b, w) :: Memory.insert m a v
    else if a = b then (a, v) :: m
    else (a, v) :: (b, w) :: m

/-- MEM[a] <- v (R64), keeping the canonical form. -/
def Memory.write (m : Memory) (a : Nat) (v : Byte) : Memory :=
  if v = background a then m.erase a else m.insert a v

/-- The canonical form from address `lo` on. -/
def Memory.wfFrom : Nat → Memory → Bool
  | _, [] => true
  | lo, (a, v) :: m =>
    decide (lo ≤ a) && decide (a < Config.memSize) && decide (v ≠ background a) && Memory.wfFrom (a + 1) m

/-- The canonical form: addresses strictly rising, all inside 0x000-0xFFF, and no entry equal to what an unlisted
address reads as. -/
def Memory.wf (m : Memory) : Bool := Memory.wfFrom 0 m

/-- The `n` cells from address `lo` on, each with the byte `f` gives it. -/
def Memory.ofBytesFrom (f : Nat → Byte) : Nat → Nat → Memory
  | 0, _ => []
  | n + 1, lo =>
    if f lo = background lo then Memory.ofBytesFrom f n (lo + 1)
    else (lo, f lo) :: Memory.ofBytesFrom f n (lo + 1)

/-- The memory whose byte at each address 0x000-0xFFF is what `f` gives. -/
def Memory.ofBytes (f : Nat → Byte) : Memory := Memory.ofBytesFrom f Config.memSize 0

end Sys2Proof.Machine
end

