-- ==== Sys2Proof/Machine/State.lean ====
section
/-! DEFINITION. The state of the core, all of it (spec/10_state.md rule R20), the reasons a step can stop, and the
state after reset (rules R56 and R57). -/

namespace Sys2Proof.Machine

/-- The fault kinds of spec/60_exceptions.md rule R300. The core ENTERS a fault: the step answers a next state that is
halted and holds the fault's record (R308), and a halted core's next step changes nothing (R311). So no step answers
`Host.Outcome.fault`; these names say which fault a check found. notes/assumptions/3.md. Safe: nothing is stopped that
the hardware runs. -/
inductive Fault where
  /-- Code 1: an address above 0xFFF. Raised by the fetch, DXYN, FX33, FX55, FX65 and the host port (R301). Safe. -/
  | memOutOfBounds (a : Nat)
  /-- Code 2: a push with SP = 16. Raised by 2NNN (R302). Safe. -/
  | stackOverflow
  /-- Code 3: a pop with SP = 0. Raised by 00EE (R303). Safe. -/
  | stackUnderflow
  /-- Code 4: VX ≥ 16. Raised by FX29 (R304). Safe. -/
  | invalidGlyph (v : Byte)
  /-- Code 5: a word no case of rule R94 recognises, the 0NNN words among them. Raised at decode (R305). Safe. -/
  | invalidOpcode
  /-- Code 6: VX ≥ 16. Raised by EX9E and EXA1 (R306; the spec's own choice, D10). Safe: the core stops where the
  hardware might go on. -/
  | keyIndexOutOfRange (v : Byte)
  deriving DecidableEq, Repr

/-- Why a step has no answer. No arm of `exec` is left without a meaning, so no step answers with it. -/
inductive Refusal where
  /-- An instruction that has no meaning yet; raised by an arm of `exec` only. Safe. -/
  | notModelled (mnemonic : String)
  deriving DecidableEq, Repr

/-- The fault record FAULT (R48). -/
structure FaultRecord where
  /-- 1..6 (R300). -/
  code : Nat
  /-- The address the faulting instruction was fetched from (R48). -/
  pc : Word
  /-- The instruction word, absent when the fetch itself faulted (R48). -/
  word : Option Word
  /-- The out-of-range address, or the offending VX, absent otherwise (R48, R300). An address the core forms is at most
  0xFFFF + 15; a host address has no bound (notes/assumptions/29.md and 30.md). -/
  info : Option Nat
  deriving DecidableEq, Repr

/-- The complete state of the core (R20). -/
structure State where
  /-- V0..VF (R22). -/
  v : Vector Byte 16
  /-- The index register I, 16 bits, never masked (R32, R33). -/
  i : Word
  /-- The program counter (R28). -/
  pc : Word
  /-- The stack pointer, the number of entries in use, 0..16 (R36). -/
  sp : Nat
  /-- STACK[0..15], the return addresses (R35). -/
  stack : Vector Word 16
  /-- The delay timer DT (R40). -/
  dt : Byte
  /-- The sound timer ST (R40). -/
  st : Byte
  /-- KEY[0..15], the keypad flags (R43). -/
  key : Vector Bool 16
  /-- MEM[0x000..0xFFF], the framebuffer in it (R49). -/
  mem : Memory
  /-- DISPLAY_CHANGED (R45). -/
  displayChanged : Bool
  /-- BEEP (R46). -/
  beep : Bool
  /-- HALTED (R47). -/
  halted : Bool
  /-- FAULT, the record of the fault that set HALTED, or empty (R48). -/
  fault : Option FaultRecord
  /-- THE MODEL'S OWN field: how many free values have been drawn. notes/assumptions/2.md. -/
  draws : Nat
  deriving DecidableEq, Repr

/-- What `exec`, `step` and the meanings answer. -/
abbrev Result := Host.Outcome State Fault Refusal

/-- The state after reset (R56, R57, R340): nothing is listed in memory, so it reads as the font and zeros. The zeros
other than SP are the spec's own choice (D3), and `draws` is the model's. notes/assumptions/5.md. -/
def State.reset : State :=
  { v := Vector.replicate 16 0, i := 0, pc := Config.entry, sp := 0, stack := Vector.replicate 16 0, dt := 0, st := 0,
    key := Vector.replicate 16 false, mem := [], displayChanged := false, beep := false, halted := false, fault := none,
    draws := 0 }

end Sys2Proof.Machine
end

