-- ==== Sys2Proof/Machine/Operands.lean ====
section
/-! DEFINITION. The operand forms of the instructions: registers, immediates, `I` plus an offset, the font glyph, the
decimal digits, and screen coordinates (spec/30_encoding.md rule R93, spec/43_memory_ops.md rule R210,
spec/20_memory.md rule R73). -/

namespace Sys2Proof.Machine

/-- V[x] (R8, R22). -/
def State.getV (s : State) (x : Reg) : Byte := s.v[x.val]

/-- V[x] <- b (R8, R22): no register is hard-wired. -/
def State.setV (s : State) (x : Reg) (b : Byte) : State := { s with v := s.v.set x.val b }

/-- The index of the flag register VF (R8, R25). -/
def VF : Reg := 0xF

/-- The index of V0, the implicit operand of BNNN (R23). -/
def V0 : Reg := 0x0

/-- V0..VX as a block, in ascending order (R23, R218). -/
def State.regBlock (s : State) (x : Reg) : List Byte := s.v.toList.take (x.val + 1)

/-- V[k] <- bs[k] for every k below the block's length (R23, R219). -/
def State.setRegBlock (s : State) (bs : List Byte) : State :=
  { s with v := Vector.ofFn fun k : Fin 16 => bs.getD k.val s.v[k.val] }

/-- zext_16(NNN) (R93). -/
def zextAddr (nnn : Addr) : Word := nnn.setWidth 16

/-- I + k as a natural number, never wrapped (R62, R210). -/
def State.dataAddr (s : State) (k : Nat) : Nat := s.i.toNat + k

/-- The address of the font glyph of digit `d` (R72, R213). -/
def glyphAddr (d : Byte) : Word := BitVec.ofNat 16 (Config.glyphBytes * d.toNat)

/-- The hundreds, tens and ones of a byte, the order FX33 stores them in (R217). -/
def bcdDigits (b : Byte) : List Byte :=
  [BitVec.ofNat 8 (b.toNat / 100), BitVec.ofNat 8 (b.toNat / 10 % 10), BitVec.ofNat 8 (b.toNat % 10)]

/-- The column a sprite starts at: VX mod 64 (R243, R244). -/
def spriteCol (b : Byte) : Nat := b.toNat % Config.fbWidth

/-- The row a sprite starts at: VY mod 32 (R243, R244). -/
def spriteRow (b : Byte) : Nat := b.toNat % Config.fbHeight

/-- The address of the framebuffer byte that holds pixel (x, y) (R73). -/
def pixelAddr (x y : Nat) : Nat := Config.fbBase + 8 * y + x / 8

/-- The bit of that byte which is pixel (x, y): bit 7 is the leftmost. PRESUMED: the spec supplies the bit order from
general knowledge (R73, D5, G2). notes/assumptions/9.md. -/
def pixelBit (x : Nat) : Nat := 7 - x % 8

/-- The mask of pixel (x, y) in its byte (R243). -/
def pixelMask (x : Nat) : Byte := BitVec.ofNat 8 (2 ^ pixelBit x)

/-- Whether pixel (x, y) of the framebuffer is set (R73). -/
def Memory.pixel (m : Memory) (x y : Nat) : Bool := (m.read (pixelAddr x y)).getLsbD (pixelBit x)

/-- Bit `b` counted from the left of a sprite row: bit 7 is the leftmost pixel (R242, D5). -/
def rowBit (row : Byte) (b : Nat) : Bool := row.getLsbD (7 - b)

/-- The lowest pressed key (R272). -/
def State.lowestKey (s : State) : Option (Fin 16) := (List.finRange 16).find? fun k => s.key[k.val]

end Sys2Proof.Machine
end

