-- ==== Sys2Proof/Machine/Ops.lean ====
section
/-! DEFINITION. The shared operations: memory accesses (spec/20_memory.md), the call stack (spec/10_state.md §6), skips
(spec/42_control_flow.md rule R185), the timer step (spec/40_cycle.md rule R126) and entering a fault
(spec/60_exceptions.md rule R308). There is no return from a fault: only reset clears HALTED (R311, R312). -/

namespace Sys2Proof.Machine

/-! ### Memory -/

/-- The address lies in the framebuffer 0xF00-0xFFF (R66, R72). -/
def inFramebuffer (a : Nat) : Bool := decide (Config.fbBase ≤ a) && decide (a < Config.fbBase + Config.fbSize)

/-- `MemRead(a, 1)` (R63): no side effect (R71). -/
def State.memRead (s : State) (a : Nat) : Except Fault Byte :=
  if a < Config.memSize then .ok (s.mem.read a) else .error (.memOutOfBounds a)

/-- MEM[a] <- v for an address inside memory, with the side effect of a write to the framebuffer (R64, R66). -/
def State.store (s : State) (a : Nat) (v : Byte) : State :=
  { s with mem := s.mem.write a v, displayChanged := s.displayChanged || inFramebuffer a }

/-- `MemWrite(a, 1, v)` (R64). -/
def State.memWrite (s : State) (a : Nat) (v : Byte) : Except Fault State :=
  if a < Config.memSize then .ok (s.store a v) else .error (.memOutOfBounds a)

/-- Read `n` bytes from `a` on, in ascending order (R70); the first invalid address faults (R310). -/
def State.readBlock (s : State) : (n a : Nat) → Except Fault (List Byte)
  | 0, _ => .ok []
  | n + 1, a =>
    match s.memRead a with
    | .error f => .error f
    | .ok b =>
      match s.readBlock n (a + 1) with
      | .error f => .error f
      | .ok bs => .ok (b :: bs)

/-- Write bytes from `a` on, in ascending order (R70); the first invalid address faults (R310). -/
def State.writeBlock : State → List Byte → Nat → Except Fault State
  | s, [], _ => .ok s
  | s, v :: vs, a =>
    match s.memWrite a v with
    | .error f => .error f
    | .ok t => t.writeBlock vs (a + 1)

/-! ### Control -/

/-- PC <- (PC + 2) mod 2^16: a taken skip (R185). -/
def State.skip (s : State) : State := { s with pc := s.pc + 2 }

/-- A skip that is taken when the condition holds (R185). -/
def State.skipIf (s : State) (c : Bool) : State := if c then s.skip else s

/-- PC <- (PC - 2) mod 2^16: the key-wait rewind (R272). -/
def State.rewind (s : State) : State := { s with pc := s.pc - 2 }

/-- STACK[SP] <- w, then SP <- SP + 1 (R36, R184). Called with SP < 16 only. -/
def State.push (s : State) (w : Word) : State :=
  { s with stack := s.stack.setIfInBounds s.sp w, sp := s.sp + 1 }

/-- STACK[SP - 1], the entry a pop reads (R36, R182). SP is at most 16 in every state a run reaches;
notes/assumptions/16.md. -/
def State.stackTop (s : State) : Word := s.stack[s.sp - 1]?.getD 0

/-- SP <- SP - 1, then PC <- STACK[SP]; the entry keeps its value (R37, R182). Called with SP ≠ 0 only. -/
def State.popPc (s : State) : State := { s with sp := s.sp - 1, pc := s.stackTop }

/-! ### Timers -/

/-- One decrement of a timer; the floor is zero (R40, R126). -/
def timerDecr (t : Byte) : Byte := if t = 0 then 0 else t - 1

/-- The timer step: DT and ST count down, BEEP tells whether ST was nonzero (R126). -/
def State.timerStep (s : State) : State :=
  { s with dt := timerDecr s.dt, st := timerDecr s.st, beep := decide (s.st ≠ 0) }

/-! ### Faults -/

/-- FAULT.code (R300). -/
def Fault.code : Fault → Nat
  | .memOutOfBounds _ => 1
  | .stackOverflow => 2
  | .stackUnderflow => 3
  | .invalidGlyph _ => 4
  | .invalidOpcode => 5
  | .keyIndexOutOfRange _ => 6

/-- FAULT.info (R300). -/
def Fault.info : Fault → Option Nat
  | .memOutOfBounds a => some a
  | .stackOverflow => none
  | .stackUnderflow => none
  | .invalidGlyph v => some v.toNat
  | .invalidOpcode => none
  | .keyIndexOutOfRange v => some v.toNat

/-- Every part of the state that is not defined after a fault is a free value (R309, U2). notes/assumptions/1.md. -/
def State.loseUndefined (s : State) : State :=
  { v := Config.lostV s.draws, i := Config.lostI s.draws, pc := Config.lostPc s.draws,
    sp := (Config.lostSp s.draws).val, stack := Config.lostStack s.draws, dt := Config.lostDt s.draws,
    st := Config.lostSt s.draws, key := Config.lostKey s.draws, mem := Memory.ofBytes (Config.lostByte s.draws),
    displayChanged := Config.lostDisplayChanged s.draws, beep := s.beep, halted := s.halted, fault := s.fault,
    draws := s.draws + 1 }

/-- Fault entry (R308): HALTED, FAULT and BEEP are written, the rest is not defined (R309). `pc` is the fetch address
and `word` the instruction word, absent when the fetch did not complete. -/
def enterFault (f : Fault) (pc : Word) (word : Option Word) (s : State) : State :=
  { s.loseUndefined with
    halted := true, fault := some { code := f.code, pc := pc, word := word, info := f.info }, beep := false }

/-- `raise F` from the meaning of instruction `i`: PC holds the fetch address plus 2 while an instruction executes
(R28, R123), and the word is the instruction's encoding. notes/assumptions/4.md. -/
def raise (f : Fault) (i : Instr) (s : State) : Result := .next (enterFault f (s.pc - 2) (some (encode i)) s)

/-- End a meaning whose accesses may have faulted (R10). -/
def orRaise (i : Instr) (s : State) : Except Fault State → Result
  | .ok t => .next t
  | .error f => raise f i s

end Sys2Proof.Machine
end

