-- ==== Sys2Proof/Machine/Arithmetic.lean ====
section
/-! DEFINITION. Arithmetic and logic: 6XNN, 7XNN, 8XY0-8XY7, 8XYE, CXNN (spec/41_arithmetic.md). Statements execute in
the order the rule writes them; operands named `a` and `b` are read once, before any write (D7). No instruction of this
family faults. -/

namespace Sys2Proof.Machine

/-- LD Vx, nn (R150). -/
def execLdImm (x : Reg) (nn : Byte) (s : State) : Result := .next (s.setV x nn)

/-- ADD Vx, nn: wraps modulo 256, no flag (R151). -/
def execAddImm (x : Reg) (nn : Byte) (s : State) : Result := .next (s.setV x (s.getV x + nn))

/-- LD Vx, Vy (R152). -/
def execLdReg (x y : Reg) (s : State) : Result := .next (s.setV x (s.getV y))

/-- OR Vx, Vy: VF is not written (R153). -/
def execOr (x y : Reg) (s : State) : Result := .next (s.setV x (s.getV x ||| s.getV y))

/-- AND Vx, Vy: VF is not written (R154). -/
def execAnd (x y : Reg) (s : State) : Result := .next (s.setV x (s.getV x &&& s.getV y))

/-- XOR Vx, Vy: VF is not written (R155). -/
def execXor (x y : Reg) (s : State) : Result := .next (s.setV x (s.getV x ^^^ s.getV y))

/-- ADD Vx, Vy: the carry is written last (R156, D7). -/
def execAddReg (x y : Reg) (s : State) : Result :=
  let a := s.getV x
  let b := s.getV y
  .next ((s.setV x (a + b)).setV VF (carryFlag a b))

/-- SUB Vx, Vy: the no-borrow flag is written last (R157, D7). -/
def execSub (x y : Reg) (s : State) : Result :=
  let a := s.getV x
  let b := s.getV y
  .next ((s.setV x (a - b)).setV VF (noBorrowFlag a b))

/-- SUBN Vx, Vy: the no-borrow flag is written last (R159, D7). -/
def execSubn (x y : Reg) (s : State) : Result :=
  let a := s.getV x
  let b := s.getV y
  .next ((s.setV x (b - a)).setV VF (noBorrowFlag b a))

/-- SHR Vx, Vy: VF is written first, and V[X] is read after it; Y is ignored (R158, D7). -/
def execShr (x y : Reg) (s : State) : Result :=
  let _ := y
  let t := s.setV VF (shrFlag (s.getV x))
  .next (t.setV x (t.getV x >>> 1))

/-- SHL Vx, Vy: VF is written first, raw, and V[X] is read after it; Y is ignored (R160, D7). -/
def execShl (x y : Reg) (s : State) : Result :=
  let _ := y
  let t := s.setV VF (shlFlag (s.getV x))
  .next (t.setV x (t.getV x <<< 1))

/-- RND Vx, nn: one draw of the free value RAND per execution (R52, R161, D17). -/
def execRnd (x : Reg) (nn : Byte) (s : State) : Result :=
  .next ({ s with draws := s.draws + 1 }.setV x (Config.randIn s.draws &&& nn))

end Sys2Proof.Machine
end

