-- ==== Sys2Proof/Machine/ControlFlow.lean ====
section
/-! DEFINITION. Control transfer: 0NNN, 00EE, 1NNN, 2NNN, 3XNN, 4XNN, 5XY0, 9XY0, BNNN (spec/42_control_flow.md). PC
holds the fetch address plus 2 when a meaning runs (R180), and a target is taken as it is. -/

namespace Sys2Proof.Machine

/-- SYS nnn: the unimplemented legacy call, always InvalidOpcode (R181). -/
def execSys (nnn : Addr) (s : State) : Result := raise .invalidOpcode (.sys nnn) s

/-- RET (R182). -/
def execRet (s : State) : Result := if s.sp = 0 then raise .stackUnderflow .ret s else .next s.popPc

/-- JP nnn (R183). -/
def execJp (nnn : Addr) (s : State) : Result := .next { s with pc := zextAddr nnn }

/-- CALL nnn: the check comes before anything is pushed; the pushed value is the address after the call (R184).
SP > 16 is reached by no run and counts as full; notes/assumptions/16.md. -/
def execCall (nnn : Addr) (s : State) : Result :=
  if s.sp < Config.stackDepth then .next { s.push s.pc with pc := zextAddr nnn }
  else raise .stackOverflow (.call nnn) s

/-- SE Vx, nn (R186). -/
def execSeImm (x : Reg) (nn : Byte) (s : State) : Result := .next (s.skipIf (s.getV x == nn))

/-- SNE Vx, nn (R187). -/
def execSneImm (x : Reg) (nn : Byte) (s : State) : Result := .next (s.skipIf (s.getV x != nn))

/-- SE Vx, Vy (R188). -/
def execSeReg (x y : Reg) (s : State) : Result := .next (s.skipIf (s.getV x == s.getV y))

/-- SNE Vx, Vy (R189). -/
def execSneReg (x y : Reg) (s : State) : Result := .next (s.skipIf (s.getV x != s.getV y))

/-- JP V0, nnn: always V0, modulo 2^16 (R190). -/
def execJpV0 (nnn : Addr) (s : State) : Result := .next { s with pc := (s.getV V0).setWidth 16 + zextAddr nnn }

end Sys2Proof.Machine
end

