-- ==== Sys2Proof/Machine/Graphics.lean ====
section
/-! DEFINITION. Graphics: 00E0 and DXYN (spec/44_graphics.md). -/

namespace Sys2Proof.Machine

/-- CLS: 0x00 to every framebuffer byte, ascending, and DISPLAY_CHANGED is set (R241). -/
def execCls (s : State) : Result :=
  match s.writeBlock (List.replicate Config.fbSize 0) Config.fbBase with
  | .ok t => .next { t with displayChanged := true }
  | .error f => raise f .cls s

/-- One sprite pixel at (x, y): a clipped pixel or a 0 bit does nothing; a 1 bit toggles the pixel, and a collision is
noted when the pixel was set (R243). The pixel's byte is always inside memory, so the access needs no check. -/
def drawPixel (x y : Nat) (on : Bool) (p : State × Bool) : State × Bool :=
  if on && decide (x < Config.fbWidth) && decide (y < Config.fbHeight) then
    let old := p.1.mem.read (pixelAddr x y)
    (p.1.store (pixelAddr x y) (old ^^^ pixelMask x), p.2 || old &&& pixelMask x != 0)
  else p

/-- The pixels of one sprite row, from bit index `b` (counted from the left) on, `n` of them (R243). -/
def drawRow (x0 y : Nat) (row : Byte) : (n b : Nat) → State × Bool → State × Bool
  | 0, _, p => p
  | n + 1, b, p => drawRow x0 y row n (b + 1) (drawPixel (x0 + b) y (rowBit row b) p)

/-- The rows of a sprite, one below the other (R243). -/
def drawRows (x0 : Nat) : List Byte → (y : Nat) → State × Bool → State × Bool
  | [], _, p => p
  | row :: rows, y, p => drawRows x0 rows (y + 1) (drawRow x0 y row 8 0 p)

/-- DRW Vx, Vy, n: the coordinates are read before VF is written, every sprite byte is read before any pixel is drawn,
and VF is written last (R243 to R247, D8). -/
def execDrw (x y : Reg) (n : Count) (s : State) : Result :=
  match s.readBlock (Config.spriteRows n) (s.dataAddr 0) with
  | .error f => raise f (.drw x y n) s
  | .ok rows =>
    let p := drawRows (spriteCol (s.getV x)) rows (spriteRow (s.getV y)) (s, false)
    .next { p.1.setV VF (collisionFlag p.2) with displayChanged := true }

end Sys2Proof.Machine
end

