-- ==== Sys2Proof/Machine/InputTimers.lean ====
section
/-! DEFINITION. Keypad and timers: EX9E, EXA1, FX0A, FX07, FX15, FX18 (spec/45_input_timers.md). The timer step of the
cycle runs after the meaning, in Sys2Proof/Machine/Cycle.lean. -/

namespace Sys2Proof.Machine

/-- SKP Vx: a key index above 15 faults (R270, D10). -/
def execSkp (x : Reg) (s : State) : Result :=
  if h : (s.getV x).toNat < 16 then .next (s.skipIf s.key[(s.getV x).toNat])
  else raise (.keyIndexOutOfRange (s.getV x)) (.skp x) s

/-- SKNP Vx: a key index above 15 faults (R271, D10). -/
def execSknp (x : Reg) (s : State) : Result :=
  if h : (s.getV x).toNat < 16 then .next (s.skipIf (!s.key[(s.getV x).toNat]))
  else raise (.keyIndexOutOfRange (s.getV x)) (.sknp x) s

/-- LD Vx, K: the lowest pressed key, or PC back to this instruction when none is pressed (R272). -/
def execLdVxK (x : Reg) (s : State) : Result :=
  match s.lowestKey with
  | some k => .next (s.setV x (BitVec.ofNat 8 k.val))
  | none => .next s.rewind

/-- LD Vx, DT: DT before this cycle's timer step (R273). -/
def execLdVxDt (x : Reg) (s : State) : Result := .next (s.setV x s.dt)

/-- LD DT, Vx (R274). -/
def execLdDtVx (x : Reg) (s : State) : Result := .next { s with dt := s.getV x }

/-- LD ST, Vx (R275). -/
def execLdStVx (x : Reg) (s : State) : Result := .next { s with st := s.getV x }

end Sys2Proof.Machine
end

