-- ==== Sys2Proof/Machine/MemoryOps.lean ====
section
/-! DEFINITION. The index register and the memory instructions: ANNN, FX1E, FX29, FX33, FX55, FX65
(spec/43_memory_ops.md). -/

namespace Sys2Proof.Machine

/-- LD I, nnn (R211). -/
def execLdI (nnn : Addr) (s : State) : Result := .next { s with i := zextAddr nnn }

/-- ADD I, Vx: a 16-bit add, no flag, no mask (R212, R33). -/
def execAddI (x : Reg) (s : State) : Result := .next { s with i := s.i + (s.getV x).setWidth 16 }

/-- LD F, Vx (R213). -/
def execLdF (x : Reg) (s : State) : Result :=
  if (s.getV x).toNat ≥ 16 then raise (.invalidGlyph (s.getV x)) (.ldF x) s
  else .next { s with i := glyphAddr (s.getV x) }

/-- LD B, Vx: hundreds, tens and ones at I, I + 1, I + 2 (R217). -/
def execLdB (x : Reg) (s : State) : Result :=
  orRaise (.ldB x) s (s.writeBlock (bcdDigits (s.getV x)) (s.dataAddr 0))

/-- LD [I], Vx: store V0..VX, ascending; I is not modified (R218, R34). -/
def execLdMemVx (x : Reg) (s : State) : Result :=
  orRaise (.ldMemVx x) s (s.writeBlock (s.regBlock x) (s.dataAddr 0))

/-- LD Vx, [I]: load V0..VX, ascending; I is not modified, and no register loaded affects an address (R219, R34). -/
def execLdVxMem (x : Reg) (s : State) : Result :=
  match s.readBlock (x.val + 1) (s.dataAddr 0) with
  | .ok bs => .next (s.setRegBlock bs)
  | .error f => raise f (.ldVxMem x) s

end Sys2Proof.Machine
end

