-- ==== Sys2Proof/Machine/Cycle.lean ====
section
/-! DEFINITION. The parts of one instruction cycle (spec/40_cycle.md rule R120): the display-changed reset, the fetch,
decoding, execution, the timer step; and placing a word where the next cycle fetches it. -/

namespace Sys2Proof.Machine

/-- The fetch: the bytes at PC and PC + 1, unwrapped, the first the more significant (R67, R122). -/
def State.fetch (s : State) : Except Fault Word :=
  match s.memRead s.pc.toNat with
  | .error f => .error f
  | .ok hi =>
    match s.memRead (s.pc.toNat + 1) with
    | .error f => .error f
    | .ok lo => .ok (beWord hi lo)

/-- The first step of a cycle: DISPLAY_CHANGED <- 0 (R121). -/
def State.beginCycle (s : State) : State := { s with displayChanged := false }

/-- PC <- (a + 2) mod 2^16 after a successful fetch (R123). -/
def State.advance (s : State) : State := { s with pc := s.pc + 2 }

/-- The end of a cycle: the timer step, unless the instruction entered a fault (R126, R308). -/
def endCycle : Result → Result
  | .next t => .next (if t.halted then t else t.timerStep)
  | .fault f => .fault f
  | .refused r => .refused r

/-- Decode and execute the fetched word; PC has been advanced (R123 to R125). -/
def runWord (w : Word) (s : State) : Result :=
  match decode w with
  | .ok i => endCycle (exec i s)
  | .error _ => .next (enterFault .invalidOpcode (s.pc - 2) (some w) s)

/-- One cycle of a core that is not halted (R120). -/
def cycle (s : State) : Result :=
  match s.beginCycle.fetch with
  | .error f => .next (enterFault f s.pc none s.beginCycle)
  | .ok w => runWord w s.beginCycle.advance

/-- A state whose next step fetches: not halted, and PC where two bytes can be read (R31, R122, R311). -/
def State.fetchable (s : State) : State :=
  { s with
    pc := if s.pc.toNat + 1 < Config.memSize then s.pc else Config.entry
    halted := false
    fault := none }

/-- Place a word at PC, big-endian, as the host's load does (R67, R344). -/
def State.placeWord (s : State) (w : Word) : State :=
  { s with mem := (s.mem.write s.pc.toNat (hiByte w)).write (s.pc.toNat + 1) (loByte w) }

end Sys2Proof.Machine
end

