-- ==== Sys2Proof/Machine/Step.lean ====
section
/-! DEFINITION. One request on the `cycle` port (spec/10_state.md rule R50, spec/40_cycle.md rule R120). -/

namespace Sys2Proof.Machine

/-- One cycle request: a halted core does nothing (R311), any other performs one cycle (R120). -/
def step (s : State) : Host.Outcome State Fault Refusal := if s.halted then .next s else cycle s

/-- `s` with the instruction word `w` placed where `step` fetches next, as a host load does; the bits of `w` above
`nbits` and above the instruction's 16 play no part. A halted core is made running, and a PC from which no fetch
succeeds becomes the entry point. notes/assumptions/17.md. -/
def State.withFetchWord (s : State) (nbits w : Nat) : State :=
  s.fetchable.placeWord (BitVec.ofNat 16 (w % 2 ^ nbits))

end Sys2Proof.Machine
end

