-- ==== Sys2Proof/Machine/HostPort.lean ====
section
/-! DEFINITION. What the host does to the core between cycles: the ports of spec/10_state.md §11 and the program load of
spec/70_reset_and_hazards.md §2. A host operation and a cycle are whole steps, so none runs during another (R128, U16). -/

namespace Sys2Proof.Machine

/-- `set_key(k, b)`: KEY[k mod 16] <- b (R51). -/
def State.setKey (s : State) (k : Nat) (b : Bool) : State := { s with key := s.key.setIfInBounds (k % 16) b }

/-- One byte written by the host: bounds-checked, and DISPLAY_CHANGED is not set (R53, R66, D16). DESIGN CHOICE: the
address has no upper bound; notes/assumptions/30.md. -/
def State.hostStore (s : State) (a : Nat) (v : Byte) : Except Fault State :=
  if a < Config.memSize then .ok { s with mem := s.mem.write a v } else .error (.memOutOfBounds a)

/-- Bytes written by the host from `a` on, ascending; the first address above 0xFFF faults (R53, R345). -/
def State.hostStoreBlock : State → List Byte → Nat → Except Fault State
  | s, [], _ => .ok s
  | s, v :: vs, a =>
    match s.hostStore a v with
    | .error f => .error f
    | .ok t => t.hostStoreBlock vs (a + 1)

/-- A host access that may have faulted: the fault entry with the current PC and no word (R53, R308).
notes/assumptions/18.md. -/
def State.orHostFault (s : State) : Except Fault State → State
  | .ok t => t
  | .error f => enterFault f s.pc none s

/-- `host_read(a)`: the byte and the state, or no byte and the fault entered (R53). DESIGN CHOICE: the address has no
upper bound; notes/assumptions/30.md. -/
def State.hostRead (s : State) (a : Nat) : Option Byte × State :=
  match s.memRead a with
  | .ok b => (some b, s)
  | .error f => (none, enterFault f s.pc none s)

/-- `host_write(a, v)` (R53). -/
def State.hostWrite (s : State) (a : Nat) (v : Byte) : State := s.orHostFault (s.hostStore a v)

/-- `host_write2(a, w)`: the high byte at the lower address (R53, R68, D16). -/
def State.hostWrite2 (s : State) (a : Nat) (w : Word) : State :=
  s.orHostFault (s.hostStoreBlock [hiByte w, loByte w] a)

/-- The bytes of a program image that the load keeps: an odd trailing byte is dropped (R344). -/
def loadedBytes (p : List Byte) : List Byte := p.take (2 * (p.length / 2))

/-- The program load: the kept bytes from 0x200 on (R344); a load that runs past 0xFFF faults (R345). -/
def State.loadProgram (s : State) (p : List Byte) : State :=
  s.orHostFault (s.hostStoreBlock (loadedBytes p) Config.entry.toNat)

/-- The `reset` input: every piece of the spec's state takes its reset value (R55, R340). The model's draw counter goes
on, so that no free value is drawn twice. notes/assumptions/19.md. -/
def State.resetInput (s : State) : State := { State.reset with draws := s.draws }

/-- The outputs of the core (R54). -/
structure Outputs where
  displayChanged : Bool
  beep : Bool
  halted : Bool
  fault : Option FaultRecord
  /-- The 256 bytes at 0xF00-0xFFF, in address order (R54, R240). -/
  framebuffer : List Byte
  deriving DecidableEq, Repr

/-- The outputs, valid after each cycle (R54, R127). -/
def State.outputs (s : State) : Outputs :=
  { displayChanged := s.displayChanged
    beep := s.beep
    halted := s.halted
    fault := s.fault
    framebuffer := (List.range Config.fbSize).map fun k => s.mem.read (Config.fbBase + k) }

/-- What the host can do, one whole operation each (R346). DESIGN CHOICE: an address is any natural number, since R53
gives it no width, so a host fault may record an info above the bound of R300; notes/assumptions/30.md. -/
inductive HostOp where
  /-- Request one cycle (R50). -/
  | cycle
  /-- The `reset` input (R55). -/
  | reset
  /-- `set_key(k, b)` (R51). -/
  | setKey (k : Nat) (b : Bool)
  /-- `host_read(a)` (R53). -/
  | read (a : Nat)
  /-- `host_write(a, v)` (R53). -/
  | write (a : Nat) (v : Byte)
  /-- `host_write2(a, w)` (R53). -/
  | write2 (a : Nat) (w : Word)
  /-- The program load (R344). -/
  | load (p : List Byte)
  deriving DecidableEq, Repr

/-- One host operation on the core (R346). -/
def hostStep (op : HostOp) (s : State) : Result :=
  match op with
  | .cycle => step s
  | .reset => .next s.resetInput
  | .setKey k b => .next (s.setKey k b)
  | .read a => .next (s.hostRead a).2
  | .write a v => .next (s.hostWrite a v)
  | .write2 a w => .next (s.hostWrite2 a w)
  | .load p => .next (s.loadProgram p)

/-- A session of the core: the host's operations in order, cycles among them (R343, R346). -/
def hostRun : List HostOp → State → Result
  | [], s => .next s
  | op :: ops, s =>
    match hostStep op s with
    | .next t => hostRun ops t
    | .fault f => .fault f
    | .refused r => .refused r

end Sys2Proof.Machine
end

