-- ==== Sys2Proof/Safety.lean ====
section
/-! DEFINITION. The terms claims are stated in: what stays unchanged, what entering a fault shows, the invariant of the
core, and a run without a fault. -/

namespace Sys2Proof.Machine

/-- Every register V is the same in both states. -/
def SameV (s t : State) : Prop := ∀ r : Reg, t.getV r = s.getV r

/-- Every register V but those listed is the same in both states. -/
def SameVBut (rs : List Reg) (s t : State) : Prop := ∀ r : Reg, r ∉ rs → t.getV r = s.getV r

/-- Every byte of memory reads the same in both states. -/
def SameMem (s t : State) : Prop := ∀ a : Nat, t.mem.read a = s.mem.read a

/-- Every byte of memory outside the `n` bytes from `lo` on reads the same in both states. -/
def SameMemBut (lo n : Nat) (s t : State) : Prop := ∀ a : Nat, a < lo ∨ lo + n ≤ a → t.mem.read a = s.mem.read a

/-- SP, every stack entry, the keypad, HALTED, FAULT and BEEP are the same: what no instruction but a call, a return
or a fault touches (R35, R43, R46, R47). -/
structure SameControl (s t : State) : Prop where
  sp : t.sp = s.sp
  stack : t.stack = s.stack
  key : t.key = s.key
  beep : t.beep = s.beep
  halted : t.halted = s.halted
  fault : t.fault = s.fault

/-- Both timers are the same (R40). -/
def SameTimers (s t : State) : Prop := t.dt = s.dt ∧ t.st = s.st

/-! ### Frames: what one instruction leaves unchanged. The model's own draw counter is in none of them. -/

/-- Nothing changes but the listed registers V. -/
structure OnlyV (rs : List Reg) (s t : State) : Prop where
  v : SameVBut rs s t
  i : t.i = s.i
  pc : t.pc = s.pc
  control : SameControl s t
  timers : SameTimers s t
  mem : SameMem s t
  displayChanged : t.displayChanged = s.displayChanged

/-- Nothing changes but PC. -/
structure OnlyPc (s t : State) : Prop where
  v : SameV s t
  i : t.i = s.i
  control : SameControl s t
  timers : SameTimers s t
  mem : SameMem s t
  displayChanged : t.displayChanged = s.displayChanged

/-- Nothing changes but I. -/
structure OnlyI (s t : State) : Prop where
  v : SameV s t
  pc : t.pc = s.pc
  control : SameControl s t
  timers : SameTimers s t
  mem : SameMem s t
  displayChanged : t.displayChanged = s.displayChanged

/-- Nothing changes but DT and ST. -/
structure OnlyTimers (s t : State) : Prop where
  v : SameV s t
  i : t.i = s.i
  pc : t.pc = s.pc
  control : SameControl s t
  mem : SameMem s t
  displayChanged : t.displayChanged = s.displayChanged

/-- Nothing changes but SP, the stack and PC. -/
structure OnlyStackAndPc (s t : State) : Prop where
  v : SameV s t
  i : t.i = s.i
  key : t.key = s.key
  beep : t.beep = s.beep
  halted : t.halted = s.halted
  fault : t.fault = s.fault
  timers : SameTimers s t
  mem : SameMem s t
  displayChanged : t.displayChanged = s.displayChanged

/-- Nothing changes but the listed registers V, the `n` bytes of memory from `lo` on, and DISPLAY_CHANGED. -/
structure OnlyVAndMem (rs : List Reg) (lo n : Nat) (s t : State) : Prop where
  v : SameVBut rs s t
  i : t.i = s.i
  pc : t.pc = s.pc
  control : SameControl s t
  timers : SameTimers s t
  mem : SameMemBut lo n s t

/-! ### Which instructions write what -/

/-- `r` is an explicit destination of the instruction: X, or one of V0..VX for FX65 (R22, R23, R26). -/
def destV (r : Reg) : Instr → Bool
  | .ldImm x _ | .addImm x _ | .ldReg x _ | .or x _ | .and x _ | .xor x _ | .addReg x _ | .sub x _ | .subn x _
  | .shr x _ | .shl x _ | .rnd x _ | .ldVxDt x | .ldVxK x => decide (r = x)
  | .ldVxMem x => decide (r.val ≤ x.val)
  | .cls | .ret | .sys _ | .jp _ | .call _ | .seImm _ _ | .sneImm _ _ | .seReg _ _ | .sneReg _ _ | .ldI _ | .jpV0 _
  | .drw _ _ _ | .skp _ | .sknp _ | .ldDtVx _ | .ldStVx _ | .addI _ | .ldF _ | .ldB _ | .ldMemVx _ => false

/-- The instruction writes VF as a side effect (R26). -/
def setsFlag : Instr → Bool
  | .addReg _ _ | .sub _ _ | .subn _ _ | .shr _ _ | .shl _ _ | .drw _ _ _ => true
  | .cls | .ret | .sys _ | .jp _ | .call _ | .seImm _ _ | .sneImm _ _ | .seReg _ _ | .sneReg _ _ | .ldImm _ _
  | .addImm _ _ | .ldReg _ _ | .or _ _ | .and _ _ | .xor _ _ | .ldI _ | .jpV0 _ | .rnd _ _ | .skp _ | .sknp _
  | .ldVxDt _ | .ldVxK _ | .ldDtVx _ | .ldStVx _ | .addI _ | .ldF _ | .ldB _ | .ldMemVx _ | .ldVxMem _ => false

/-- The instruction writes I (R32). -/
def writesI : Instr → Bool
  | .ldI _ | .addI _ | .ldF _ => true
  | .cls | .ret | .sys _ | .jp _ | .call _ | .seImm _ _ | .sneImm _ _ | .seReg _ _ | .sneReg _ _ | .ldImm _ _
  | .addImm _ _ | .ldReg _ _ | .or _ _ | .and _ _ | .xor _ _ | .addReg _ _ | .sub _ _ | .subn _ _ | .shr _ _
  | .shl _ _ | .jpV0 _ | .rnd _ _ | .drw _ _ _ | .skp _ | .sknp _ | .ldVxDt _ | .ldVxK _ | .ldDtVx _ | .ldStVx _
  | .ldB _ | .ldMemVx _ | .ldVxMem _ => false

/-- The instruction writes PC beyond the fetch's advance: a jump, a call, a return, a skip or the key wait (R29). -/
def writesPc : Instr → Bool
  | .ret | .jp _ | .call _ | .seImm _ _ | .sneImm _ _ | .seReg _ _ | .sneReg _ _ | .jpV0 _ | .skp _ | .sknp _
  | .ldVxK _ => true
  | .cls | .sys _ | .ldImm _ _ | .addImm _ _ | .ldReg _ _ | .or _ _ | .and _ _ | .xor _ _ | .addReg _ _ | .sub _ _
  | .subn _ _ | .shr _ _ | .shl _ _ | .ldI _ | .rnd _ _ | .drw _ _ _ | .ldVxDt _ | .ldDtVx _ | .ldStVx _ | .addI _
  | .ldF _ | .ldB _ | .ldMemVx _ | .ldVxMem _ => false

/-- The instruction writes memory (R61). -/
def writesMem : Instr → Bool
  | .cls | .drw _ _ _ | .ldB _ | .ldMemVx _ => true
  | .ret | .sys _ | .jp _ | .call _ | .seImm _ _ | .sneImm _ _ | .seReg _ _ | .sneReg _ _ | .ldImm _ _ | .addImm _ _
  | .ldReg _ _ | .or _ _ | .and _ _ | .xor _ _ | .addReg _ _ | .sub _ _ | .subn _ _ | .shr _ _ | .shl _ _ | .ldI _
  | .jpV0 _ | .rnd _ _ | .skp _ | .sknp _ | .ldVxDt _ | .ldVxK _ | .ldDtVx _ | .ldStVx _ | .addI _ | .ldF _
  | .ldVxMem _ => false

/-- The condition under which an instruction enters a fault of its own (R300 to R307). DESIGN CHOICE: 2NNN faults for SP
above 16 too, which no run reaches; notes/assumptions/16.md. -/
def faultsIn (s : State) : Instr → Prop
  | .sys _ => True
  | .ret => s.sp = 0
  | .call _ => 16 ≤ s.sp
  | .ldF x | .skp x | .sknp x => 16 ≤ (s.getV x).toNat
  | .ldB _ => 0xFFF < s.i.toNat + 2
  | .ldMemVx x | .ldVxMem x => 0xFFF < s.i.toNat + x.val
  | .drw _ _ n => 0xFFF < s.i.toNat + n.val
  | .cls | .jp _ | .seImm _ _ | .sneImm _ _ | .seReg _ _ | .sneReg _ _ | .ldImm _ _ | .addImm _ _ | .ldReg _ _
  | .or _ _ | .and _ _ | .xor _ _ | .addReg _ _ | .sub _ _ | .subn _ _ | .shr _ _ | .shl _ _ | .ldI _ | .jpV0 _
  | .rnd _ _ | .ldVxDt _ | .ldVxK _ | .ldDtVx _ | .ldStVx _ | .addI _ => False

/-- The running core's next cycle fetches and executes `i` (R122 to R125). -/
structure State.Executes (s : State) (i : Instr) : Prop where
  running : s.halted = false
  fetch : s.pc.toNat + 1 ≤ 0xFFF
  decode : decode (beWord (s.mem.read s.pc.toNat) (s.mem.read (s.pc.toNat + 1))) = .ok i

/-- What a fault entry shows: HALTED, FAULT and BEEP, and nothing else (R308, R309). -/
def Faulted (f : Fault) (pc : Word) (word : Option Word) (t : State) : Prop :=
  t.halted = true ∧ t.beep = false ∧ t.fault = some { code := f.code, pc := pc, word := word, info := f.info }

/-- Bit (x, y) of a sprite drawn with its upper left corner at (x0, y0): whether it toggles that pixel (R242, R243). -/
def spriteBit (rows : List Byte) (x0 y0 x y : Nat) : Bool :=
  decide (x0 ≤ x) && decide (x < x0 + 8) && decide (y0 ≤ y) && decide (y < y0 + rows.length) &&
    rowBit (rows.getD (y - y0) 0) (x - x0)

/-- The `n` bytes of memory from `a` on. -/
def State.bytes (s : State) (a n : Nat) : List Byte := (List.range n).map fun k => s.mem.read (a + k)

/-- The invariant of the core: memory is canonical; SP is at most 16 (R36); the core is halted exactly when FAULT holds
a record (R47, R48), whose code is 1 to 6 (R300); a halted core does not beep (R308); and while it runs, PC is at most
0x10FE and every live stack entry at most 0x1000 (R31). -/
structure State.Inv (s : State) : Prop where
  mem : s.mem.wf = true
  sp : s.sp ≤ 16
  faultIff : s.halted = s.fault.isSome
  code : ∀ r, s.fault = some r → 1 ≤ r.code ∧ r.code ≤ 6
  silent : s.halted = true → s.beep = false
  pc : s.halted = false → s.pc.toNat ≤ 0x10FE
  stack : s.halted = false → ∀ k, (h : k < 16) → k < s.sp → (s.stack[k]).toNat ≤ 0x1000

/-- `n` cycle requests, one after the other (R50, R129). -/
def cycles : Nat → State → Result
  | 0, s => .next s
  | n + 1, s =>
    match step s with
    | .next t => cycles n t
    | .fault f => .fault f
    | .refused r => .refused r

/-- A run of `n` cycles that meets no fault (R129, R309). -/
def SafeRun (n : Nat) (s : State) : Prop := ∃ t, cycles n s = .next t ∧ t.halted = false

end Sys2Proof.Machine
end

