-- ==== Sys2Proof/Certificates/Slice0/Obligations.lean ====
section
/-! DEFINITION. The statements for the provers, from the numbered rules of spec/. A statement that rests on a choice the
spec marks as its own ([decision: Dn], [derived: …]) says so in its docstring and has basis "derived". -/

open Sys2Proof Sys2Proof.Machine

/-! ## Encoding -/

/-- Words written out bit by bit decode to the instructions they stand for, and words of no case are rejected
(spec/95_test_vectors.md L2.1, which marks them as derived from R94). That 5121 is rejected rests on STRICT_5_9 = true, the
spec's decision D14 (notes/assumptions/8.md). -/
def Obligations.DecodesWordsOfTheSpec : Prop :=
  decode 0b0000000011100000 = .ok .cls ∧
  decode 0b0000000011101110 = .ok .ret ∧
  decode 0b0000000100100011 = .ok (.sys 0x123) ∧
  decode 0b0001101010111100 = .ok (.jp 0xABC) ∧
  decode 0b0011101001000010 = .ok (.seImm 0xA 0x42) ∧
  decode 0b1000101010110101 = .ok (.sub 0xA 0xB) ∧
  decode 0b1000101010110110 = .ok (.shr 0xA 0xB) ∧
  decode 0b1101101010110101 = .ok (.drw 0xA 0xB 0x5) ∧
  decode 0b1110101010011110 = .ok (.skp 0xA) ∧
  decode 0b1111101000001010 = .ok (.ldVxK 0xA) ∧
  decode 0b1111101001010101 = .ok (.ldMemVx 0xA) ∧
  decode 0b0101000100100001 = .error (.invalidOpcode 0x5121) ∧
  decode 0b1000000000011000 = .error (.invalidOpcode 0x8018) ∧
  decode 0b1111000000000000 = .error (.invalidOpcode 0xF000)

/-- Every well-formed instruction is what its own word decodes to, every operand at every value its field admits
(R92, R95). -/
def Obligations.DecodeInvertsEncode : Prop :=
  ∀ i : Instr, i.wellFormed = true → decode (encode i) = .ok i

/-- Every word that decodes is the word of the instruction it decodes to, which is well-formed: no two words mean one
instruction. Rests on STRICT_5_9 = true, the spec's decision D14 (notes/assumptions/8.md). -/
def Obligations.EncodeInvertsDecode : Prop :=
  ∀ (w : Word) (i : Instr), decode w = .ok i → encode i = w ∧ i.wellFormed = true

/-- In the groups 0x8, 0xE and 0xF a word is executable exactly when its function code is listed, and is rejected as
InvalidOpcode otherwise; in the groups without secondary dispatch every word is executable (R97, R98, R99, R101). -/
def Obligations.SecondaryDispatchDecidesExecutable : Prop :=
  ∀ w : Word,
    let g := w.toNat / 0x1000
    let n := w.toNat % 0x10
    let nn := w.toNat % 0x100
    let executable := ∃ i, decode w = .ok i ∧ ∀ nnn, i ≠ .sys nnn
    let rejected := decode w = .error (.invalidOpcode w)
    (g = 0x8 → if n ∈ [0, 1, 2, 3, 4, 5, 6, 7, 0xE] then executable else rejected) ∧
    (g = 0xE → if nn ∈ [0x9E, 0xA1] then executable else rejected) ∧
    (g = 0xF → if nn ∈ [0x07, 0x0A, 0x15, 0x18, 0x1E, 0x29, 0x33, 0x55, 0x65] then executable else rejected) ∧
    (g ∈ [0x1, 0x2, 0x3, 0x4, 0x6, 0x7, 0xA, 0xB, 0xC, 0xD] → executable)

/-- In group 0x0 only 00E0 and 00EE are executable, every other word being the unimplemented legacy call; in the groups
0x5 and 0x9 a word is executable exactly when its low nibble is 0 (R96, R100; STRICT_5_9 = true is the spec's decision
D14, notes/assumptions/8.md). -/
def Obligations.ZeroFiveNineGroupsDecode : Prop :=
  ∀ w : Word,
    let g := w.toNat / 0x1000
    let n := w.toNat % 0x10
    (g = 0x0 → decode w =
      if w = 0x00E0 then .ok .cls else if w = 0x00EE then .ok .ret else .ok (.sys (w.setWidth 12))) ∧
    (g = 0x5 ∨ g = 0x9 → if n = 0 then ∃ x y, decode w = .ok (if g = 0x5 then .seReg x y else .sneReg x y)
      else decode w = .error (.invalidOpcode w))

/-! ## The cycle -/

/-- A step of a running core whose bytes at PC decode to `i` is `exec i` on the state with DISPLAY_CHANGED cleared and
PC advanced by 2, followed by the timer step unless the instruction entered a fault (R120 to R126; the place of the
timer step and BEEP are the spec's decision D21). -/
def Obligations.StepRunsTheDecodedInstruction : Prop :=
  ∀ (s : State) (i : Instr), s.Executes i →
    ∀ t, exec i { s with displayChanged := false, pc := s.pc + 2 } = .next t →
      step s = .next (if t.halted then t else
        { t with
          dt := if t.dt = 0 then 0 else t.dt - 1
          st := if t.st = 0 then 0 else t.st - 1
          beep := decide (t.st ≠ 0) })

/-- Every step answers a next state: a fault of the core is entered, not an end of the machine, and no instruction is
without a meaning (R308, R311; the model's reading, notes/assumptions/3.md). -/
def Obligations.EveryStepAnswersANextState : Prop :=
  (∀ (i : Instr) (s : State), ∃ t, exec i s = .next t) ∧ ∀ s : State, ∃ t, step s = .next t

/-- A running core whose PC is above 0xFFE faults at the fetch, with the first invalid address and no word (R122,
R308; decisions D11, D12, D15). -/
def Obligations.FetchOutsideMemoryFaults : Prop :=
  ∀ s : State, s.halted = false → 0xFFE < s.pc.toNat →
    ∃ t, step s = .next t ∧
      Faulted (.memOutOfBounds (if s.pc.toNat = 0xFFF then 0x1000 else s.pc.toNat)) s.pc none t

/-- A running core whose word at PC matches no case faults InvalidOpcode with that word (R102, R305, R308; decisions
D11, D12). -/
def Obligations.IllegalWordFaults : Prop :=
  ∀ (s : State) (w : Word), s.halted = false → s.pc.toNat + 1 ≤ 0xFFF →
    beWord (s.mem.read s.pc.toNat) (s.mem.read (s.pc.toNat + 1)) = w → decode w = .error (.invalidOpcode w) →
    ∃ t, step s = .next t ∧ Faulted .invalidOpcode s.pc (some w) t

/-- The record of a fault an instruction raises names the address it was fetched from and the word that was fetched
(R48, R308; decision D11). -/
def Obligations.FaultRecordNamesTheInstruction : Prop :=
  ∀ (s t : State) (i : Instr), s.Executes i → step s = .next t → t.halted = true →
    t.beep = false ∧ ∃ r, t.fault = some r ∧ r.pc = s.pc ∧
      r.word = some (beWord (s.mem.read s.pc.toNat) (s.mem.read (s.pc.toNat + 1)))

/-- While the core is halted any number of cycle requests changes nothing (R311, R47; decision D12). -/
def Obligations.HaltedCoreStays : Prop :=
  ∀ (n : Nat) (s : State), s.halted = true → cycles n s = .next s

/-- A run without a fault has met none before either: a fault is for good (R47, R311, R312; decision D12). -/
def Obligations.FaultIsForGood : Prop :=
  ∀ (n m : Nat) (s : State), SafeRun (n + m) s → SafeRun n s

/-- After a cycle without a fault DISPLAY_CHANGED is 1 exactly when the cycle's instruction was 00E0 or DXYN or wrote a
byte to 0xF00-0xFFF, which FX33 and FX55 do through I (R121). -/
def Obligations.DisplayChangedTellsTheCycle : Prop :=
  ∀ (s t : State) (i : Instr), s.Executes i → step s = .next t → t.halted = false →
    (t.displayChanged = true ↔
      i = .cls ∨ (∃ x y n, i = .drw x y n) ∨
      (∃ x, i = .ldB x ∧ ∃ k, k ≤ 2 ∧ 0xF00 ≤ s.i.toNat + k ∧ s.i.toNat + k ≤ 0xFFF) ∨
      (∃ x, i = .ldMemVx x ∧ ∃ k, k ≤ x.val ∧ 0xF00 ≤ s.i.toNat + k ∧ s.i.toNat + k ≤ 0xFFF))

/-! ## Reset and the invariant -/

/-- The state after reset, every field of it, and every byte of memory (R56, R57, R340). Of these only PC = 0x200 is
the source's; the zeros are the spec's decision D3 and the font bytes its decision D4 (notes/assumptions/5.md and
6.md). `draws`, the model's own counter, is not claimed. -/
def Obligations.ResetStateIsAsSpecified : Prop :=
  let s := State.reset
  (∀ r : Reg, s.getV r = 0) ∧ s.i = 0 ∧ s.pc = 0x200 ∧ s.sp = 0 ∧ (∀ k, (h : k < 16) → s.stack[k] = 0) ∧
  s.dt = 0 ∧ s.st = 0 ∧ (∀ k, (h : k < 16) → s.key[k] = false) ∧
  s.displayChanged = false ∧ s.beep = false ∧ s.halted = false ∧ s.fault = none ∧
  s.bytes 0x000 20 = [0xF0, 0x90, 0x90, 0x90, 0xF0, 0x20, 0x60, 0x20, 0x20, 0x70,
    0xF0, 0x10, 0xF0, 0x80, 0xF0, 0xF0, 0x10, 0xF0, 0x10, 0xF0] ∧
  s.bytes 0x014 20 = [0x90, 0x90, 0xF0, 0x10, 0x10, 0xF0, 0x80, 0xF0, 0x10, 0xF0,
    0xF0, 0x80, 0xF0, 0x90, 0xF0, 0xF0, 0x10, 0x20, 0x40, 0x40] ∧
  s.bytes 0x028 20 = [0xF0, 0x90, 0xF0, 0x90, 0xF0, 0xF0, 0x90, 0xF0, 0x10, 0xF0,
    0xF0, 0x90, 0xF0, 0x90, 0x90, 0xE0, 0x90, 0xE0, 0x90, 0xE0] ∧
  s.bytes 0x03C 20 = [0xF0, 0x80, 0x80, 0x80, 0xF0, 0xE0, 0x90, 0x90, 0x90, 0xE0,
    0xF0, 0x80, 0xF0, 0x80, 0xF0, 0xF0, 0x80, 0xF0, 0x80, 0x80] ∧
  (∀ a, 0x050 ≤ a → a ≤ 0xFFF → s.mem.read a = 0)

/-- The reset state meets the invariant. -/
def Obligations.ResetMeetsTheInvariant : Prop := State.reset.Inv

/-- Every step keeps the invariant, from every state that meets it: memory stays canonical, SP at most 16, PC at most
0x10FE and the live return addresses at most 0x1000 while the core runs, and the core is halted exactly when FAULT holds
a record (R31, R36, R47, R48; R31 is marked as derived and HALTED is decision D12). -/
def Obligations.StepKeepsTheInvariant : Prop :=
  ∀ s t : State, s.Inv → step s = .next t → t.Inv

/-- Every operation of the host keeps the invariant: reset, keys, memory reads and writes and the program load, a cycle
among them (R51, R53, R55, R344, R346; decisions D2 and D16). -/
def Obligations.HostOperationsKeepTheInvariant : Prop :=
  ∀ (op : HostOp) (s t : State), s.Inv → hostStep op s = .next t → t.Inv

/-! ## Rules about all instructions -/

/-- An instruction that does not fault writes no register V but its explicit destination, and VF if it is one of the
six that R26 lists (R22, R26). -/
def Obligations.RegistersWrittenOnlyAsListed : Prop :=
  ∀ (i : Instr) (s t : State) (r : Reg), exec i s = .next t → t.halted = false →
    destV r i = false → (r = 0xF → setsFlag i = false) → t.getV r = s.getV r

/-- An instruction that does not fault writes I only if it is ANNN, FX1E or FX29; PC only if it is a jump, call, return,
skip or the key wait; SP and the stack only if it is 2NNN or 00EE; DT only if it is FX15, ST only if it is FX18; memory
only if it is 00E0, DXYN, FX33 or FX55; and never the keypad (R29, R32, R35, R40, R43, R61; decisions D13 and D23). -/
def Obligations.EachPartHasOnlyItsWriters : Prop :=
  ∀ (i : Instr) (s t : State), exec i s = .next t → t.halted = false →
    (writesI i = false → t.i = s.i) ∧
    (writesPc i = false → t.pc = s.pc) ∧
    ((∀ nnn, i ≠ .call nnn) → i ≠ .ret → t.sp = s.sp ∧ t.stack = s.stack) ∧
    ((∀ x, i ≠ .ldDtVx x) → t.dt = s.dt) ∧
    ((∀ x, i ≠ .ldStVx x) → t.st = s.st) ∧
    (writesMem i = false → SameMem s t) ∧
    t.key = s.key

/-- An instruction faults exactly in the cases the spec names: 0NNN always, 00EE on an empty stack, 2NNN on a full one,
FX29, EX9E and EXA1 when VX is 16 or more, and a memory instruction whose block runs past 0xFFF; no other exception
exists (R300 to R307). R307 is marked as derived; the key index is the spec's decision D10 (notes/assumptions/13.md),
unwrapped addresses D6 (10.md), the reads of clipped sprite rows D8 (12.md), the row count N + 1 D9 (7.md). That 2NNN
faults for SP above 16 too, which no run reaches, is the model's own choice (16.md): the spec speaks of SP = 16. -/
def Obligations.InstructionsFaultExactlyAsListed : Prop :=
  ∀ (i : Instr) (s t : State), exec i s = .next t → s.halted = false → (t.halted = true ↔ faultsIn s i)

/-- The fault record and BEEP of every checked instruction (R182, R184, R213, R270, R271, R300, R308; decisions D10,
D11, D12 and D23). -/
def Obligations.CheckedInstructionsRecordTheirFault : Prop :=
  ∀ s : State,
    (s.sp = 0 → ∃ t, exec .ret s = .next t ∧ Faulted .stackUnderflow (s.pc - 2) (some 0x00EE) t) ∧
    (∀ nnn, s.sp = 16 → ∃ t, exec (.call nnn) s = .next t ∧
      Faulted .stackOverflow (s.pc - 2) (some (encode (.call nnn))) t) ∧
    (∀ x, 16 ≤ (s.getV x).toNat →
      (∃ t, exec (.ldF x) s = .next t ∧ Faulted (.invalidGlyph (s.getV x)) (s.pc - 2) (some (encode (.ldF x))) t) ∧
      (∃ t, exec (.skp x) s = .next t ∧
        Faulted (.keyIndexOutOfRange (s.getV x)) (s.pc - 2) (some (encode (.skp x))) t) ∧
      (∃ t, exec (.sknp x) s = .next t ∧
        Faulted (.keyIndexOutOfRange (s.getV x)) (s.pc - 2) (some (encode (.sknp x))) t))

/-- A memory instruction whose block runs past 0xFFF faults MemOutOfBounds at its first invalid address: I itself when
I is above 0xFFF, 0x1000 otherwise (R217, R218, R219, R243, R310; decisions D6, D8, D11, D12 and D25; the row count N + 1
is decision D9). -/
def Obligations.BlockPastMemoryFaults : Prop :=
  ∀ s : State,
    let a := if 0xFFF < s.i.toNat then s.i.toNat else 0x1000
    (∀ x, 0xFFF < s.i.toNat + 2 → ∃ t, exec (.ldB x) s = .next t ∧
      Faulted (.memOutOfBounds a) (s.pc - 2) (some (encode (.ldB x))) t) ∧
    (∀ x, 0xFFF < s.i.toNat + x.val →
      (∃ t, exec (.ldMemVx x) s = .next t ∧
        Faulted (.memOutOfBounds a) (s.pc - 2) (some (encode (.ldMemVx x))) t) ∧
      (∃ t, exec (.ldVxMem x) s = .next t ∧
        Faulted (.memOutOfBounds a) (s.pc - 2) (some (encode (.ldVxMem x))) t)) ∧
    (∀ x y n, 0xFFF < s.i.toNat + n.val → ∃ t, exec (.drw x y n) s = .next t ∧
      Faulted (.memOutOfBounds a) (s.pc - 2) (some (encode (.drw x y n))) t)

/-! ## Arithmetic and logic -/

/-- 6XNN puts NN into VX and changes nothing else; `0110 xxxx nnnn nnnn` is its word (R150). -/
def Obligations.LoadImmediatePutsNnInVx : Prop :=
  ∀ (x : Reg) (nn : Byte), decode (0b0110#4 ++ BitVec.ofFin (w := 4) x ++ nn) = .ok (.ldImm x nn) ∧
    ∀ s : State, ∃ t, exec (.ldImm x nn) s = .next t ∧ t.getV x = nn ∧ OnlyV [x] s t

/-- 7XNN adds NN to VX modulo 256 and changes nothing else, VF neither (R151). -/
def Obligations.AddImmediateWrapsWithoutFlag : Prop :=
  ∀ (x : Reg) (nn : Byte), decode (0b0111#4 ++ BitVec.ofFin (w := 4) x ++ nn) = .ok (.addImm x nn) ∧
    ∀ s : State, ∃ t, exec (.addImm x nn) s = .next t ∧
      (t.getV x).toNat = ((s.getV x).toNat + nn.toNat) % 256 ∧ OnlyV [x] s t

/-- 8XY0 copies VY into VX and changes nothing else (R152). -/
def Obligations.CopyPutsVyInVx : Prop :=
  ∀ x y : Reg, decode (0b1000#4 ++ BitVec.ofFin (w := 4) x ++ BitVec.ofFin (w := 4) y ++ 0b0000#4) = .ok (.ldReg x y) ∧
    ∀ s : State, ∃ t, exec (.ldReg x y) s = .next t ∧ t.getV x = s.getV y ∧ OnlyV [x] s t

/-- 8XY2 and 8XY3 put the bitwise AND and exclusive OR of VX and VY into VX, bit by bit, and change nothing else, VF
neither (R154, R155). -/
def Obligations.AndAndXorWorkBitByBit : Prop :=
  ∀ x y : Reg,
    decode (0b1000#4 ++ BitVec.ofFin (w := 4) x ++ BitVec.ofFin (w := 4) y ++ 0b0010#4) = .ok (.and x y) ∧
    decode (0b1000#4 ++ BitVec.ofFin (w := 4) x ++ BitVec.ofFin (w := 4) y ++ 0b0011#4) = .ok (.xor x y) ∧
    ∀ s : State,
      (∃ t, exec (.and x y) s = .next t ∧
        (∀ b < 8, (t.getV x).getLsbD b = ((s.getV x).getLsbD b && (s.getV y).getLsbD b)) ∧ OnlyV [x] s t) ∧
      (∃ t, exec (.xor x y) s = .next t ∧
        (∀ b < 8, (t.getV x).getLsbD b = ((s.getV x).getLsbD b ^^ (s.getV y).getLsbD b)) ∧ OnlyV [x] s t)

/-- 8XY1 puts the bitwise OR of VX and VY into VX, bit by bit, and changes nothing else, VF neither (R153, which marks
the order of the three operations as derived; C9). -/
def Obligations.OrWorksBitByBit : Prop :=
  ∀ (x y : Reg) (s : State), ∃ t, exec (.or x y) s = .next t ∧
    (∀ b < 8, (t.getV x).getLsbD b = ((s.getV x).getLsbD b || (s.getV y).getLsbD b)) ∧ OnlyV [x] s t

/-- 8XY4 puts the sum modulo 256 into VX and the carry into VF, which is written last: with X = F the carry is what VF
ends as (R156; the case X = F is decision D7). -/
def Obligations.AddRegistersSetsCarry : Prop :=
  ∀ (x y : Reg) (s : State), ∃ t, exec (.addReg x y) s = .next t ∧
    (x ≠ 0xF → (t.getV x).toNat = ((s.getV x).toNat + (s.getV y).toNat) % 256) ∧
    t.getV 0xF = (if (s.getV x).toNat + (s.getV y).toNat > 255 then 1 else 0) ∧ OnlyV [x, 0xF] s t

/-- 8XY5 and 8XY7 put the difference modulo 256 into VX and "no borrow" into VF, which is written last (R157, R159;
the case X = F is decision D7). -/
def Obligations.SubtractionsSetNoBorrow : Prop :=
  ∀ (x y : Reg) (s : State),
    (∃ t, exec (.sub x y) s = .next t ∧
      (x ≠ 0xF → (t.getV x).toNat = ((s.getV x).toNat + 256 - (s.getV y).toNat) % 256) ∧
      t.getV 0xF = (if (s.getV y).toNat ≤ (s.getV x).toNat then 1 else 0) ∧ OnlyV [x, 0xF] s t) ∧
    (∃ t, exec (.subn x y) s = .next t ∧
      (x ≠ 0xF → (t.getV x).toNat = ((s.getV y).toNat + 256 - (s.getV x).toNat) % 256) ∧
      t.getV 0xF = (if (s.getV x).toNat ≤ (s.getV y).toNat then 1 else 0) ∧ OnlyV [x, 0xF] s t)

/-- 8XY6 and 8XYE shift VX by one and put the bit shifted out into VF, for 8XYE unnormalised as 0x00 or 0x80; VY plays
no part; with X = F, VF ends as 0 (R158, R160; the case X = F is decision D7). -/
def Obligations.ShiftsPutTheLostBitInVf : Prop :=
  ∀ (x y : Reg) (s : State),
    (∃ t, exec (.shr x y) s = .next t ∧
      (x ≠ 0xF → (t.getV x).toNat = (s.getV x).toNat / 2 ∧ (t.getV 0xF).toNat = (s.getV x).toNat % 2) ∧
      (x = 0xF → t.getV 0xF = 0) ∧ OnlyV [x, 0xF] s t) ∧
    (∃ t, exec (.shl x y) s = .next t ∧
      (x ≠ 0xF → (t.getV x).toNat = (s.getV x).toNat * 2 % 256 ∧
        t.getV 0xF = if 128 ≤ (s.getV x).toNat then 0x80 else 0x00) ∧
      (x = 0xF → t.getV 0xF = 0) ∧ OnlyV [x, 0xF] s t)

/-- CXNN puts one drawn byte, masked by NN, into VX: only bits set in NN can be set. The byte is the free value RAND at
the state's draw, of which nothing is known, so the statement holds for every byte (R161; decision D17,
notes/assumptions/2.md). -/
def Obligations.RandomByteIsMasked : Prop :=
  ∀ (x : Reg) (nn : Byte) (s : State), ∃ t, exec (.rnd x nn) s = .next t ∧
    (∀ b < 8, (t.getV x).getLsbD b = ((Config.randIn s.draws).getLsbD b && nn.getLsbD b)) ∧
    t.draws = s.draws + 1 ∧ OnlyV [x] s t

/-! ## Control flow -/

/-- 0NNN enters the fault InvalidOpcode with its own word (R181, R305, R308; the record is decision D11). -/
def Obligations.LegacyCallEntersInvalidOpcode : Prop :=
  ∀ (nnn : Addr) (s : State), ∃ t, exec (.sys nnn) s = .next t ∧
    Faulted .invalidOpcode (s.pc - 2) (some (nnn.setWidth 16)) t

/-- 1NNN puts NNN into PC, whatever it is, and changes nothing else (R183). -/
def Obligations.JumpGoesToNnn : Prop :=
  ∀ nnn : Addr, decode (0b0001#4 ++ nnn) = .ok (.jp nnn) ∧
    ∀ s : State, ∃ t, exec (.jp nnn) s = .next t ∧ t.pc.toNat = nnn.toNat ∧ OnlyPc s t

/-- BNNN puts V0 + NNN into PC and changes nothing else; the sum needs no wrap (R190). -/
def Obligations.JumpPlusV0AddsV0 : Prop :=
  ∀ nnn : Addr, decode (0b1011#4 ++ nnn) = .ok (.jpV0 nnn) ∧
    ∀ s : State, ∃ t, exec (.jpV0 nnn) s = .next t ∧
      t.pc.toNat = (s.getV 0).toNat + nnn.toNat ∧ t.pc.toNat ≤ 0x10FE ∧ OnlyPc s t

/-- 2NNN with room on the stack pushes PC, the address after the call, at STACK[SP] and jumps to NNN; every other entry
keeps its value (R184; the stack's form is decision D23). -/
def Obligations.CallPushesTheReturnAddress : Prop :=
  ∀ (nnn : Addr) (s : State), s.sp < 16 → ∃ t, exec (.call nnn) s = .next t ∧
    t.sp = s.sp + 1 ∧ t.pc.toNat = nnn.toNat ∧
    (∀ k, (h : k < 16) → t.stack[k] = if k = s.sp then s.pc else s.stack[k]) ∧ OnlyStackAndPc s t

/-- 00EE with an entry on the stack takes the youngest as PC; no entry is cleared (R182, R37; decision D23). -/
def Obligations.ReturnTakesTheYoungestEntry : Prop :=
  ∀ (s : State) (k : Nat), (h : k < 16) → s.sp = k + 1 → ∃ t, exec .ret s = .next t ∧
    t.sp = k ∧ t.pc = s.stack[k] ∧ t.stack = s.stack ∧ OnlyStackAndPc s t

/-- A call and the return that follows it give back PC, the address after the call, and SP (R184, L1.5; decision D23). -/
def Obligations.ReturnUndoesCall : Prop :=
  ∀ (nnn : Addr) (s : State), s.sp < 16 → ∃ t u, exec (.call nnn) s = .next t ∧ exec .ret t = .next u ∧
    u.pc = s.pc ∧ u.sp = s.sp ∧ ∀ k, (h : k < 16) → k < s.sp → u.stack[k] = s.stack[k]

/-- 3XNN and 4XNN skip, adding 2 to the PC the fetch has advanced, exactly when VX equals, or differs from, NN, and
change nothing else (R185, R186, R187). -/
def Obligations.SkipsOnAnImmediate : Prop :=
  ∀ (x : Reg) (nn : Byte),
    decode (0b0011#4 ++ BitVec.ofFin (w := 4) x ++ nn) = .ok (.seImm x nn) ∧
    decode (0b0100#4 ++ BitVec.ofFin (w := 4) x ++ nn) = .ok (.sneImm x nn) ∧
    ∀ s : State,
      (∃ t, exec (.seImm x nn) s = .next t ∧ t.pc = (if s.getV x = nn then s.pc + 2 else s.pc) ∧ OnlyPc s t) ∧
      (∃ t, exec (.sneImm x nn) s = .next t ∧ t.pc = (if s.getV x = nn then s.pc else s.pc + 2) ∧ OnlyPc s t)

/-- 5XY0 and 9XY0 skip exactly when VX equals, or differs from, VY, and change nothing else (R188, R189; their low
nibble is decision D14). -/
def Obligations.SkipsOnTwoRegisters : Prop :=
  ∀ (x y : Reg) (s : State),
    (∃ t, exec (.seReg x y) s = .next t ∧ t.pc = (if s.getV x = s.getV y then s.pc + 2 else s.pc) ∧ OnlyPc s t) ∧
    (∃ t, exec (.sneReg x y) s = .next t ∧ t.pc = (if s.getV x = s.getV y then s.pc else s.pc + 2) ∧ OnlyPc s t)

/-! ## Index register and memory -/

/-- MemRead is bounds-checked against 0xFFF: the byte, or MemOutOfBounds with the address (R63). -/
def Obligations.MemReadIsBoundsChecked : Prop :=
  ∀ (s : State) (a : Nat), s.memRead a = if a ≤ 0xFFF then .ok (s.mem.read a) else .error (.memOutOfBounds a)

/-- MemWrite is bounds-checked against 0xFFF; inside memory it writes the one byte and sets DISPLAY_CHANGED exactly when
the address lies in 0xF00-0xFFF, whatever the value (R64, R66; decision D16 for the host's writes). -/
def Obligations.MemWriteStoresOneByte : Prop :=
  ∀ (s : State) (a : Nat) (v : Byte),
    (0xFFF < a → s.memWrite a v = .error (.memOutOfBounds a)) ∧
    (a ≤ 0xFFF → ∃ t, s.memWrite a v = .ok t ∧ t.mem.read a = v ∧ (∀ b, b ≠ a → t.mem.read b = s.mem.read b) ∧
      t.displayChanged = (s.displayChanged || decide (0xF00 ≤ a)) ∧
      SameV s t ∧ t.i = s.i ∧ t.pc = s.pc ∧ SameControl s t ∧ SameTimers s t)

/-- ANNN puts NNN into I, its upper four bits 0, and changes nothing else (R211). -/
def Obligations.LoadIndexPutsNnnInI : Prop :=
  ∀ nnn : Addr, decode (0b1010#4 ++ nnn) = .ok (.ldI nnn) ∧
    ∀ s : State, ∃ t, exec (.ldI nnn) s = .next t ∧ t.i.toNat = nnn.toNat ∧ OnlyI s t

/-- FX1E adds VX to I modulo 2^16, without mask or flag, and changes nothing else (R212). -/
def Obligations.AddToIndexWrapsAt16Bits : Prop :=
  ∀ x : Reg, decode (0b1111#4 ++ BitVec.ofFin (w := 4) x ++ 0b00011110#8) = .ok (.addI x) ∧
    ∀ s : State, ∃ t, exec (.addI x) s = .next t ∧
      t.i.toNat = (s.i.toNat + (s.getV x).toNat) % 65536 ∧ OnlyI s t

/-- FX29 with VX below 16 points I at the glyph, 5 * VX, and changes nothing else (R213; its fault is in
CheckedInstructionsRecordTheirFault). -/
def Obligations.FontPointerIsFiveTimesVx : Prop :=
  ∀ (x : Reg) (s : State), (s.getV x).toNat < 16 → ∃ t, exec (.ldF x) s = .next t ∧
    t.i.toNat = 5 * (s.getV x).toNat ∧ OnlyI s t

/-- FX33 inside memory stores the hundreds, tens and ones of VX at I, I + 1 and I + 2, and changes nothing else but
DISPLAY_CHANGED, which it sets when one of them lies in the framebuffer (R217, R66; decision D6 for the addresses). -/
def Obligations.DecimalDigitsAreStored : Prop :=
  ∀ (x : Reg) (s : State), s.i.toNat + 2 ≤ 0xFFF → ∃ t, exec (.ldB x) s = .next t ∧
    (t.mem.read s.i.toNat).toNat = (s.getV x).toNat / 100 ∧
    (t.mem.read (s.i.toNat + 1)).toNat = (s.getV x).toNat / 10 % 10 ∧
    (t.mem.read (s.i.toNat + 2)).toNat = (s.getV x).toNat % 10 ∧
    (t.displayChanged = true ↔ s.displayChanged = true ∨ 0xF00 ≤ s.i.toNat + 2) ∧
    OnlyVAndMem [] s.i.toNat 3 s t

/-- FX55 inside memory stores V0..VX at I..I + X, leaves I and every register alone, and changes nothing else but
DISPLAY_CHANGED (R218, R34, R66; decision D6 for the addresses). -/
def Obligations.RegisterBlockIsStored : Prop :=
  ∀ (x : Reg) (s : State), s.i.toNat + x.val ≤ 0xFFF → ∃ t, exec (.ldMemVx x) s = .next t ∧
    (∀ k : Reg, k ≤ x → t.mem.read (s.i.toNat + k.val) = s.getV k) ∧
    (t.displayChanged = true ↔ s.displayChanged = true ∨ 0xF00 ≤ s.i.toNat + x.val) ∧
    OnlyVAndMem [] s.i.toNat (x.val + 1) s t

/-- FX65 inside memory loads V0..VX from I..I + X, and changes nothing else: no higher register, not I, no byte of
memory (R219, R34, R71; decision D6 for the addresses). -/
def Obligations.RegisterBlockIsLoaded : Prop :=
  ∀ (x : Reg) (s : State), s.i.toNat + x.val ≤ 0xFFF → ∃ t, exec (.ldVxMem x) s = .next t ∧
    (∀ k : Reg, k ≤ x → t.getV k = s.mem.read (s.i.toNat + k.val)) ∧
    (∀ k : Reg, x < k → t.getV k = s.getV k) ∧
    t.i = s.i ∧ t.pc = s.pc ∧ SameControl s t ∧ SameTimers s t ∧ SameMem s t ∧ t.displayChanged = s.displayChanged

/-! ## Graphics -/

/-- 00E0 zeroes the 256 bytes of the framebuffer and sets DISPLAY_CHANGED, and changes nothing else (R241). -/
def Obligations.ClearZeroesTheFramebuffer : Prop :=
  decode 0b0000000011100000 = .ok .cls ∧
  ∀ s : State, ∃ t, exec .cls s = .next t ∧
    (∀ a, 0xF00 ≤ a → a ≤ 0xFFF → t.mem.read a = 0) ∧ t.displayChanged = true ∧ OnlyVAndMem [] 0xF00 256 s t

/-- DXYN whose N + 1 sprite bytes lie in memory toggles exactly the on-screen pixels under the sprite's 1 bits, starting
at (VX mod 64, VY mod 32), as the framebuffer and the sprite were before the draw; VF is 1 exactly when one of them was
set, else 0; DISPLAY_CHANGED is set; nothing else changes (R243 to R247; the bit order is decision D5, the reads D8, the
row count N + 1 D9). -/
def Obligations.DrawTogglesTheSpritePixels : Prop :=
  ∀ (x y : Reg) (n : Count) (s : State), s.i.toNat + n.val ≤ 0xFFF →
    let rows := s.bytes s.i.toNat (n.val + 1)
    let bit := spriteBit rows ((s.getV x).toNat % 64) ((s.getV y).toNat % 32)
    ∃ t, exec (.drw x y n) s = .next t ∧
      (∀ px py, px < 64 → py < 32 → t.mem.pixel px py = (s.mem.pixel px py ^^ bit px py)) ∧
      (t.getV 0xF = 0 ∨ t.getV 0xF = 1) ∧
      (t.getV 0xF = 1 ↔ ∃ px py, px < 64 ∧ py < 32 ∧ bit px py = true ∧ s.mem.pixel px py = true) ∧
      t.displayChanged = true ∧ OnlyVAndMem [0xF] 0xF00 256 s t

/-- Drawing the same sprite twice at the same place gives back every byte of memory, and the second draw reports VF = 1
exactly when some on-screen 1 bit of the sprite fell on a pixel that was clear before the first draw: on a blank screen,
when some 1 bit is on screen. The sprite must lie outside the framebuffer and the coordinates outside VF, or the second
draw is not the same one (R245, marked as derived from R243; decisions D5, D8 and D9; notes/assumptions/12.md). -/
def Obligations.DrawingTwiceErases : Prop :=
  ∀ (x y : Reg) (n : Count) (s : State), x ≠ 0xF → y ≠ 0xF → s.i.toNat + n.val < 0xF00 →
    ∃ t u, exec (.drw x y n) s = .next t ∧ exec (.drw x y n) t = .next u ∧ SameMem s u ∧
      (u.getV 0xF = 1 ↔ ∃ px py, px < 64 ∧ py < 32 ∧ s.mem.pixel px py = false ∧
        spriteBit (s.bytes s.i.toNat (n.val + 1)) ((s.getV x).toNat % 64) ((s.getV y).toNat % 32) px py = true)

/-! ## Keypad and timers -/

/-- EX9E and EXA1 with VX below 16 skip exactly when key VX is, or is not, pressed, and change nothing else (R270, R271;
the bound on VX is decision D10). -/
def Obligations.SkipsOnAKey : Prop :=
  ∀ (x : Reg) (s : State), (h : (s.getV x).toNat < 16) →
    (∃ t, exec (.skp x) s = .next t ∧
      t.pc = (if s.key[(s.getV x).toNat] = true then s.pc + 2 else s.pc) ∧ OnlyPc s t) ∧
    (∃ t, exec (.sknp x) s = .next t ∧
      t.pc = (if s.key[(s.getV x).toNat] = true then s.pc else s.pc + 2) ∧ OnlyPc s t)

/-- FX0A puts the lowest pressed key into VX, changing nothing else; with no key pressed it takes 2 from PC and changes
nothing else, so that the whole cycle leaves PC at the FX0A, DISPLAY_CHANGED 0, and the timers counted down (R272). -/
def Obligations.KeyWaitTakesTheLowestKey : Prop :=
  ∀ x : Reg, decode (0b1111#4 ++ BitVec.ofFin (w := 4) x ++ 0b00001010#8) = .ok (.ldVxK x) ∧
    ∀ s : State,
      (∀ k : Fin 16, s.key[k.val] = true → (∀ j : Fin 16, j < k → s.key[j.val] = false) →
        ∃ t, exec (.ldVxK x) s = .next t ∧ (t.getV x).toNat = k.val ∧ OnlyV [x] s t) ∧
      ((∀ k : Fin 16, s.key[k.val] = false) →
        (∃ t, exec (.ldVxK x) s = .next t ∧ t.pc = s.pc - 2 ∧ OnlyPc s t) ∧
        (s.Executes (.ldVxK x) → ∃ t, step s = .next t ∧ t.pc = s.pc ∧ SameV s t ∧ SameMem s t ∧ t.i = s.i ∧
          t.displayChanged = false ∧ t.dt.toNat = s.dt.toNat - 1 ∧ t.st.toNat = s.st.toNat - 1))

/-- FX07 puts DT into VX, FX15 puts VX into DT, FX18 puts VX into ST, and each changes nothing else (R273, R274, R275). -/
def Obligations.TimerInstructionsMoveBytes : Prop :=
  ∀ (x : Reg) (s : State),
    (∃ t, exec (.ldVxDt x) s = .next t ∧ t.getV x = s.dt ∧ OnlyV [x] s t) ∧
    (∃ t, exec (.ldDtVx x) s = .next t ∧ t.dt = s.getV x ∧ t.st = s.st ∧ OnlyTimers s t) ∧
    (∃ t, exec (.ldStVx x) s = .next t ∧ t.st = s.getV x ∧ t.dt = s.dt ∧ OnlyTimers s t)

/-- Through a whole cycle: FX07 delivers DT before the cycle's decrement; a value written by FX15 or FX18 is decremented
in the same cycle, and FX18 beeps in that cycle exactly when the value is not zero; in every other cycle without a fault
DT and ST each go down by one, stopping at zero, and BEEP tells whether ST was nonzero (R126, R273, R274, R275, R352; the
place of the timer step is decision D21, R274, R275 and R352 mark their corner cases as derived). -/
def Obligations.TimersCountDownOncePerCycle : Prop :=
  ∀ (s t : State) (i : Instr), s.Executes i → step s = .next t → t.halted = false →
    (∀ x, i = .ldVxDt x → t.getV x = s.dt) ∧
    (∀ x, i = .ldDtVx x → t.dt.toNat = (s.getV x).toNat - 1) ∧
    (∀ x, i = .ldStVx x → t.st.toNat = (s.getV x).toNat - 1 ∧ t.beep = decide (s.getV x ≠ 0)) ∧
    ((∀ x, i ≠ .ldDtVx x) → t.dt.toNat = s.dt.toNat - 1) ∧
    ((∀ x, i ≠ .ldStVx x) → t.st.toNat = s.st.toNat - 1 ∧ t.beep = decide (s.st ≠ 0))

/-! ## The host -/

/-- `set_key(k, b)` writes the one flag KEY[k mod 16] (R51). -/
def Obligations.SetKeyWritesOneFlag : Prop :=
  ∀ (s : State) (k : Nat) (b : Bool), ∃ t, hostStep (.setKey k b) s = .next t ∧
    (∀ j, (h : j < 16) → t.key[j] = if j = k % 16 then b else s.key[j]) ∧ t = { s with key := t.key }

/-- The host's memory port: a write inside memory stores its bytes, the two-byte write the high byte at the lower
address, and changes nothing else, DISPLAY_CHANGED neither; a read changes nothing; an access above 0xFFF enters
MemOutOfBounds with the current PC and no word (R53, R66, R68, R308; decisions D11 and D16). Three clauses rest on the
model's reading: that a halted core's record is replaced (notes/assumptions/18.md), that host_write2 at 0xFFF faults at
0x1000 (27.md), and that a host address has no upper bound (30.md). -/
def Obligations.HostMemoryPortIsBoundsChecked : Prop :=
  ∀ (s : State) (a : Nat) (v : Byte) (w : Word),
    (a ≤ 0xFFF → s.hostRead a = (some (s.mem.read a), s) ∧
      ∃ t, hostStep (.write a v) s = .next t ∧ t = { s with mem := t.mem } ∧
        ∀ b, t.mem.read b = if b = a then v else s.mem.read b) ∧
    (a + 1 ≤ 0xFFF → ∃ t, hostStep (.write2 a w) s = .next t ∧ t = { s with mem := t.mem } ∧
      ∀ b, (t.mem.read b).toNat = if b = a then w.toNat / 256 else if b = a + 1 then w.toNat % 256
        else (s.mem.read b).toNat) ∧
    (0xFFF < a → (s.hostRead a).1 = none ∧
      (∃ t, hostStep (.read a) s = .next t ∧ Faulted (.memOutOfBounds a) s.pc none t) ∧
      (∃ t, hostStep (.write a v) s = .next t ∧ Faulted (.memOutOfBounds a) s.pc none t)) ∧
    (0xFFF < a + 1 → ∃ t, hostStep (.write2 a w) s = .next t ∧
      Faulted (.memOutOfBounds (if 0xFFF < a then a else 0x1000)) s.pc none t)

/-- The program load writes the image from 0x200 on, drops an odd trailing byte and changes nothing else; an image whose
kept bytes reach beyond 0xFFF enters MemOutOfBounds at 0x1000 with the current PC, no word and BEEP 0 (R344, R345, R308;
decisions D11, D12 and D16). That it does so on a halted core too, replacing its record, and that the load is one
operation are the model's reading (notes/assumptions/18.md and 25.md). -/
def Obligations.ProgramLoadDropsTheOddByte : Prop :=
  ∀ (s : State) (p : List Byte),
    (2 * (p.length / 2) ≤ 0xE00 → ∃ t, hostStep (.load p) s = .next t ∧ t = { s with mem := t.mem } ∧
      ∀ a, t.mem.read a =
        if 0x200 ≤ a ∧ a < 0x200 + 2 * (p.length / 2) then p.getD (a - 0x200) 0 else s.mem.read a) ∧
    (0xE00 < 2 * (p.length / 2) → ∃ t, hostStep (.load p) s = .next t ∧ Faulted (.memOutOfBounds 0x1000) s.pc none t)

/-- The reset input puts every piece of the spec's state into its reset value, from any state, a halted one too (R55,
R340; decision D28). The model's own draw counter goes on (notes/assumptions/19.md). -/
def Obligations.ResetInputRestoresTheResetState : Prop :=
  ∀ s : State, ∃ t, hostStep .reset s = .next t ∧ t = { State.reset with draws := s.draws }
end

