-- ==== Sys2Proof/Laws/Decode.lean ====
section
/-! SUPPORT. The fields of a word built from fields, and the formats of spec/30_encoding.md rule R92 as bits in a row. -/

namespace Sys2Proof

/-! ### Fields of the three word formats -/

@[simp] theorem fieldG_wordGNNN (g : Nat) (nnn : Addr) : fieldG (wordGNNN g nnn) = BitVec.ofNat 4 g := by
  apply BitVec.eq_of_toNat_eq
  have := nnn.isLt
  simp only [fieldG, wordGNNN, BitVec.extractLsb'_toNat, BitVec.toNat_ofNat]
  omega

@[simp] theorem fieldNNN_wordGNNN (g : Nat) (nnn : Addr) : fieldNNN (wordGNNN g nnn) = nnn := by
  apply BitVec.eq_of_toNat_eq
  have := nnn.isLt
  simp only [fieldNNN, wordGNNN, BitVec.extractLsb'_toNat, BitVec.toNat_ofNat]
  omega

@[simp] theorem fieldG_wordGXNN (g : Nat) (x : Reg) (nn : Byte) : fieldG (wordGXNN g x nn) = BitVec.ofNat 4 g := by
  apply BitVec.eq_of_toNat_eq
  have := nn.isLt
  have := x.isLt
  simp only [fieldG, wordGXNN, BitVec.extractLsb'_toNat, BitVec.toNat_ofNat]
  omega

@[simp] theorem fieldX_wordGXNN (g : Nat) (x : Reg) (nn : Byte) : fieldX (wordGXNN g x nn) = x := by
  apply Fin.ext
  have := nn.isLt
  have := x.isLt
  show ((wordGXNN g x nn).extractLsb' 8 4).toNat = x.val
  simp only [wordGXNN, BitVec.extractLsb'_toNat, BitVec.toNat_ofNat]
  omega

@[simp] theorem fieldNN_wordGXNN (g : Nat) (x : Reg) (nn : Byte) : fieldNN (wordGXNN g x nn) = nn := by
  apply BitVec.eq_of_toNat_eq
  have := nn.isLt
  simp only [fieldNN, wordGXNN, BitVec.extractLsb'_toNat, BitVec.toNat_ofNat]
  omega

@[simp] theorem fieldG_wordGXYN (g : Nat) (x y : Reg) (n : Fin 16) :
    fieldG (wordGXYN g x y n) = BitVec.ofNat 4 g := by
  apply BitVec.eq_of_toNat_eq
  have := x.isLt
  have := y.isLt
  have := n.isLt
  simp only [fieldG, wordGXYN, BitVec.extractLsb'_toNat, BitVec.toNat_ofNat]
  omega

@[simp] theorem fieldX_wordGXYN (g : Nat) (x y : Reg) (n : Fin 16) : fieldX (wordGXYN g x y n) = x := by
  apply Fin.ext
  have := x.isLt
  have := y.isLt
  have := n.isLt
  show ((wordGXYN g x y n).extractLsb' 8 4).toNat = x.val
  simp only [wordGXYN, BitVec.extractLsb'_toNat, BitVec.toNat_ofNat]
  omega

@[simp] theorem fieldY_wordGXYN (g : Nat) (x y : Reg) (n : Fin 16) : fieldY (wordGXYN g x y n) = y := by
  apply Fin.ext
  have := x.isLt
  have := y.isLt
  have := n.isLt
  show ((wordGXYN g x y n).extractLsb' 4 4).toNat = y.val
  simp only [wordGXYN, BitVec.extractLsb'_toNat, BitVec.toNat_ofNat]
  omega

@[simp] theorem fieldN_wordGXYN (g : Nat) (x y : Reg) (n : Fin 16) : fieldN (wordGXYN g x y n) = n := by
  apply Fin.ext
  have := n.isLt
  show ((wordGXYN g x y n).extractLsb' 0 4).toNat = n.val
  simp only [wordGXYN, BitVec.extractLsb'_toNat, BitVec.toNat_ofNat]
  omega

/-! ### A word from its fields -/

/-- A word is its group, then NNN (R91). -/
theorem eq_wordGNNN (w : Word) : wordGNNN (fieldG w).toNat (fieldNNN w) = w := by
  apply BitVec.eq_of_toNat_eq
  have := w.isLt
  simp only [fieldG, fieldNNN, wordGNNN, BitVec.extractLsb'_toNat, BitVec.toNat_ofNat]
  omega

/-- A word is its group, then X, then NN (R91). -/
theorem eq_wordGXNN (w : Word) : wordGXNN (fieldG w).toNat (fieldX w) (fieldNN w) = w := by
  apply BitVec.eq_of_toNat_eq
  have := w.isLt
  have hx : (fieldX w).val = (w.extractLsb' 8 4).toNat := rfl
  simp only [fieldG, fieldNN, wordGXNN, hx, BitVec.extractLsb'_toNat, BitVec.toNat_ofNat]
  omega

/-- A word is its group, then X, Y and N (R91). -/
theorem eq_wordGXYN (w : Word) : wordGXYN (fieldG w).toNat (fieldX w) (fieldY w) (fieldN w) = w := by
  apply BitVec.eq_of_toNat_eq
  have := w.isLt
  have hx : (fieldX w).val = (w.extractLsb' 8 4).toNat := rfl
  have hy : (fieldY w).val = (w.extractLsb' 4 4).toNat := rfl
  have hn : (fieldN w).val = (w.extractLsb' 0 4).toNat := rfl
  simp only [fieldG, wordGXYN, hx, hy, hn, BitVec.extractLsb'_toNat, BitVec.toNat_ofNat]
  omega

/-! ### The formats as bits in a row (R92) -/

theorem append_lt {m n : Nat} (a : BitVec m) (b : BitVec n) : (a ++ b).toNat = a.toNat * 2 ^ n + b.toNat := by
  rw [BitVec.toNat_append, ← Nat.shiftLeft_add_eq_or_of_lt b.isLt, Nat.shiftLeft_eq]

/-- `gggg nnnn nnnn nnnn` -/
theorem wordGNNN_bits (g : BitVec 4) (nnn : Addr) : wordGNNN g.toNat nnn = g ++ nnn := by
  apply BitVec.eq_of_toNat_eq
  have := g.isLt
  have := nnn.isLt
  simp only [wordGNNN, append_lt, BitVec.toNat_ofNat]
  omega

/-- `gggg xxxx nnnn nnnn` -/
theorem wordGXNN_bits (g : BitVec 4) (x : Reg) (nn : Byte) :
    wordGXNN g.toNat x nn = g ++ BitVec.ofFin (w := 4) x ++ nn := by
  apply BitVec.eq_of_toNat_eq
  have := g.isLt
  have := x.isLt
  have := nn.isLt
  simp only [wordGXNN, append_lt, BitVec.toNat_ofNat, BitVec.toNat_ofFin]
  omega

/-- `gggg xxxx yyyy nnnn` -/
theorem wordGXYN_bits (g : BitVec 4) (x y : Reg) (n : Fin 16) :
    wordGXYN g.toNat x y n = g ++ BitVec.ofFin (w := 4) x ++ BitVec.ofFin (w := 4) y ++ BitVec.ofFin (w := 4) n := by
  apply BitVec.eq_of_toNat_eq
  have := g.isLt
  have := x.isLt
  have := y.isLt
  have := n.isLt
  simp only [wordGXYN, append_lt, BitVec.toNat_ofNat, BitVec.toNat_ofFin]
  omega

/-! ### Bytes of a word (R67) -/

/-- The two bytes of a word compose to it. -/
@[simp] theorem beWord_bytes (w : Word) : beWord (hiByte w) (loByte w) = w := by
  apply BitVec.eq_of_toNat_eq
  have := w.isLt
  simp only [beWord, hiByte, loByte, BitVec.extractLsb'_toNat, BitVec.toNat_ofNat]
  omega

@[simp] theorem hiByte_beWord (hi lo : Byte) : hiByte (beWord hi lo) = hi := by
  apply BitVec.eq_of_toNat_eq
  have := hi.isLt
  have := lo.isLt
  simp only [beWord, hiByte, BitVec.extractLsb'_toNat, BitVec.toNat_ofNat]
  omega

@[simp] theorem loByte_beWord (hi lo : Byte) : loByte (beWord hi lo) = lo := by
  apply BitVec.eq_of_toNat_eq
  have := hi.isLt
  have := lo.isLt
  simp only [beWord, loByte, BitVec.extractLsb'_toNat, BitVec.toNat_ofNat]
  omega

end Sys2Proof
end

