-- ==== Sys2Proof/Laws/Memory.lean ====
section
/-! SUPPORT. The laws of MEM: a read after a write, and the canonical form, which every memory operation keeps. -/

namespace Sys2Proof.Machine

/-! ### Read after write -/

@[simp] theorem Memory.read_nil (a : Nat) : Memory.read [] a = background a := rfl

theorem Memory.read_cons (b : Nat) (v : Byte) (m : Memory) (a : Nat) :
    Memory.read ((b, v) :: m) a = if a = b then v else Memory.read m a := rfl

theorem Memory.read_erase (m : Memory) (a b : Nat) :
    Memory.read (Memory.erase m a) b = if b = a then background a else Memory.read m b := by
  induction m with
  | nil => by_cases h : b = a <;> simp [Memory.erase, h]
  | cons c m ih =>
    obtain ⟨k, v⟩ := c
    unfold Memory.erase at ih ⊢
    by_cases hk : k = a
    · simp only [List.filter_cons, hk, bne_self_eq_false, Bool.false_eq_true, if_false, ih, Memory.read_cons]
      split <;> rfl
    · simp only [List.filter_cons, bne_iff_ne, ne_eq, hk, not_false_eq_true, if_true, Memory.read_cons, ih]
      by_cases hb : b = k
      · simp [hb, hk]
      · simp [hb]

theorem Memory.read_insert (m : Memory) (a b : Nat) (v : Byte) :
    Memory.read (Memory.insert m a v) b = if b = a then v else Memory.read m b := by
  induction m with
  | nil => rfl
  | cons c m ih =>
    obtain ⟨k, w⟩ := c
    unfold Memory.insert
    split
    · rename_i h
      simp only [Memory.read_cons, ih]
      by_cases hb : b = k
      · have : k ≠ a := by omega
        simp [hb, this]
      · simp [hb]
    · split
      · rename_i h
        subst h
        simp only [Memory.read_cons]
        split <;> rfl
      · simp only [Memory.read_cons]

/-- A read after a write gives the written byte at the written address and leaves every other byte as it was
(R63, R64). -/
theorem Memory.read_write (m : Memory) (a b : Nat) (v : Byte) :
    Memory.read (Memory.write m a v) b = if b = a then v else Memory.read m b := by
  unfold Memory.write
  split
  · rename_i h
    rw [Memory.read_erase, h]
  · exact Memory.read_insert m a b v

@[simp] theorem Memory.read_write_same (m : Memory) (a : Nat) (v : Byte) :
    Memory.read (Memory.write m a v) a = v := by simp [Memory.read_write]

theorem Memory.read_write_ne (m : Memory) {a b : Nat} (v : Byte) (h : b ≠ a) :
    Memory.read (Memory.write m a v) b = Memory.read m b := by simp [Memory.read_write, h]

/-! ### The canonical form -/

theorem Memory.wfFrom_mono {lo lo' : Nat} (h : lo' ≤ lo) (m : Memory) (hm : Memory.wfFrom lo m = true) :
    Memory.wfFrom lo' m = true := by
  cases m with
  | nil => rfl
  | cons c m =>
    simp only [Memory.wfFrom, Bool.and_eq_true, decide_eq_true_eq] at hm ⊢
    exact ⟨⟨⟨by omega, hm.1.1.2⟩, hm.1.2⟩, hm.2⟩

theorem Memory.wfFrom_erase (m : Memory) (a : Nat) : ∀ lo, Memory.wfFrom lo m = true →
    Memory.wfFrom lo (Memory.erase m a) = true := by
  induction m with
  | nil => intro lo _; rfl
  | cons c m ih =>
    obtain ⟨k, v⟩ := c
    intro lo h
    simp only [Memory.wfFrom, Bool.and_eq_true, decide_eq_true_eq] at h
    have hm := ih (k + 1) h.2
    unfold Memory.erase at hm ⊢
    rw [List.filter_cons]
    split
    · simp only [Memory.wfFrom, Bool.and_eq_true, decide_eq_true_eq]
      exact ⟨h.1, hm⟩
    · exact Memory.wfFrom_mono (by omega) _ hm

theorem Memory.wfFrom_insert (m : Memory) {a : Nat} {v : Byte} (ha : a < Config.memSize) (hv : v ≠ background a) :
    ∀ lo, lo ≤ a → Memory.wfFrom lo m = true → Memory.wfFrom lo (Memory.insert m a v) = true := by
  induction m with
  | nil =>
    intro lo hlo _
    simp only [Memory.insert, Memory.wfFrom, Bool.and_eq_true, decide_eq_true_eq]
    exact ⟨⟨⟨hlo, ha⟩, hv⟩, trivial⟩
  | cons c m ih =>
    obtain ⟨k, w⟩ := c
    intro lo hlo h
    simp only [Memory.wfFrom, Bool.and_eq_true, decide_eq_true_eq] at h
    unfold Memory.insert
    split
    · rename_i hk
      simp only [Memory.wfFrom, Bool.and_eq_true, decide_eq_true_eq]
      exact ⟨h.1, ih (k + 1) (by omega) h.2⟩
    · split
      · rename_i hk
        subst hk
        simp only [Memory.wfFrom, Bool.and_eq_true, decide_eq_true_eq]
        exact ⟨⟨⟨hlo, ha⟩, hv⟩, h.2⟩
      · rename_i hk hne
        simp only [Memory.wfFrom, Bool.and_eq_true, decide_eq_true_eq]
        exact ⟨⟨⟨hlo, ha⟩, hv⟩, ⟨⟨by omega, h.1.1.2⟩, h.1.2⟩, h.2⟩

/-- A write inside memory keeps the canonical form. -/
theorem Memory.wf_write {m : Memory} {a : Nat} (v : Byte) (ha : a < Config.memSize) (h : Memory.wf m = true) :
    Memory.wf (Memory.write m a v) = true := by
  unfold Memory.write Memory.wf at *
  split
  · exact Memory.wfFrom_erase m a 0 h
  · rename_i hv
    exact Memory.wfFrom_insert m ha hv 0 (Nat.zero_le a) h

theorem Memory.wfFrom_ofBytesFrom (f : Nat → Byte) : ∀ n lo, lo + n ≤ Config.memSize →
    Memory.wfFrom lo (Memory.ofBytesFrom f n lo) = true := by
  intro n
  induction n with
  | zero => intro lo _; rfl
  | succ n ih =>
    intro lo h
    have hm := ih (lo + 1) (by omega)
    unfold Memory.ofBytesFrom
    split
    · exact Memory.wfFrom_mono (by omega) _ hm
    · rename_i hv
      simp only [Memory.wfFrom, Bool.and_eq_true, decide_eq_true_eq]
      exact ⟨⟨⟨Nat.le_refl lo, by omega⟩, hv⟩, hm⟩

/-- A memory given byte by byte is canonical: what a fault leaves is. -/
theorem Memory.wf_ofBytes (f : Nat → Byte) : Memory.wf (Memory.ofBytes f) = true :=
  Memory.wfFrom_ofBytesFrom f Config.memSize 0 (by simp)

/-- Memory after reset is canonical. -/
theorem Memory.wf_reset : Memory.wf State.reset.mem = true := rfl

/-- Two canonical memories that read alike everywhere are the same list. -/
theorem Memory.ext_of_read : ∀ (m n : Memory) (lo : Nat), Memory.wfFrom lo m = true → Memory.wfFrom lo n = true →
    (∀ a, Memory.read m a = Memory.read n a) → m = n := by
  have low : ∀ (m : Memory) (lo a : Nat), Memory.wfFrom lo m = true → a < lo → Memory.read m a = background a := by
    intro m
    induction m with
    | nil => intros; rfl
    | cons c m ih =>
      obtain ⟨k, v⟩ := c
      intro lo a h ha
      simp only [Memory.wfFrom, Bool.and_eq_true, decide_eq_true_eq] at h
      rw [Memory.read_cons, if_neg (by omega)]
      exact ih (k + 1) a h.2 (by omega)
  intro m
  induction m with
  | nil =>
    intro n lo _ hn hr
    cases n with
    | nil => rfl
    | cons c n =>
      obtain ⟨k, v⟩ := c
      simp only [Memory.wfFrom, Bool.and_eq_true, decide_eq_true_eq] at hn
      have := hr k
      rw [Memory.read_cons, if_pos rfl, Memory.read_nil] at this
      exact absurd this.symm hn.1.2
  | cons c m ih =>
    obtain ⟨k, v⟩ := c
    intro n lo hm hn hr
    simp only [Memory.wfFrom, Bool.and_eq_true, decide_eq_true_eq] at hm
    have hk := hr k
    rw [Memory.read_cons, if_pos rfl] at hk
    cases n with
    | nil => exact absurd hk hm.1.2
    | cons d n =>
      obtain ⟨l, w⟩ := d
      simp only [Memory.wfFrom, Bool.and_eq_true, decide_eq_true_eq] at hn
      have hl := hr l
      rw [Memory.read_cons l w, if_pos rfl] at hl
      have hkl : k = l := by
        rcases Nat.lt_trichotomy k l with h | h | h
        · rw [Memory.read_cons, if_neg (by omega), low n (l + 1) k hn.2 (by omega)] at hk
          exact absurd hk hm.1.2
        · exact h
        · rw [Memory.read_cons, if_neg (by omega), low m (k + 1) l hm.2 (by omega)] at hl
          exact absurd hl.symm hn.1.2
      subst hkl
      rw [Memory.read_cons, if_pos rfl] at hk
      subst hk
      congr 1
      refine ih n (k + 1) hm.2 hn.2 fun a => ?_
      by_cases ha : a < k + 1
      · rw [low m (k + 1) a hm.2 ha, low n (k + 1) a hn.2 ha]
      · have := hr a
        rwa [Memory.read_cons, Memory.read_cons, if_neg (by omega), if_neg (by omega)] at this

/-- Equal contents are equal data: the canonical form has one list for each memory. -/
theorem Memory.eq_of_read {m n : Memory} (hm : Memory.wf m = true) (hn : Memory.wf n = true)
    (h : ∀ a, Memory.read m a = Memory.read n a) : m = n := Memory.ext_of_read m n 0 hm hn h

end Sys2Proof.Machine
end

