-- ==== Sys2Proof/Laws/State.lean ====
section
/-! SUPPORT. One lemma per field per update of the state, each true by `rfl`, so that no later proof unfolds a record
update. -/

namespace Sys2Proof.Machine

/-! ### setV -/

@[simp] theorem State.setV_v (s : State) (x : Reg) (b : Byte) : (s.setV x b).v = s.v.set x.val b := rfl
@[simp] theorem State.setV_i (s : State) (x : Reg) (b : Byte) : (s.setV x b).i = s.i := rfl
@[simp] theorem State.setV_pc (s : State) (x : Reg) (b : Byte) : (s.setV x b).pc = s.pc := rfl
@[simp] theorem State.setV_sp (s : State) (x : Reg) (b : Byte) : (s.setV x b).sp = s.sp := rfl
@[simp] theorem State.setV_stack (s : State) (x : Reg) (b : Byte) : (s.setV x b).stack = s.stack := rfl
@[simp] theorem State.setV_dt (s : State) (x : Reg) (b : Byte) : (s.setV x b).dt = s.dt := rfl
@[simp] theorem State.setV_st (s : State) (x : Reg) (b : Byte) : (s.setV x b).st = s.st := rfl
@[simp] theorem State.setV_key (s : State) (x : Reg) (b : Byte) : (s.setV x b).key = s.key := rfl
@[simp] theorem State.setV_mem (s : State) (x : Reg) (b : Byte) : (s.setV x b).mem = s.mem := rfl
@[simp] theorem State.setV_displayChanged (s : State) (x : Reg) (b : Byte) : (s.setV x b).displayChanged = s.displayChanged := rfl
@[simp] theorem State.setV_beep (s : State) (x : Reg) (b : Byte) : (s.setV x b).beep = s.beep := rfl
@[simp] theorem State.setV_halted (s : State) (x : Reg) (b : Byte) : (s.setV x b).halted = s.halted := rfl
@[simp] theorem State.setV_fault (s : State) (x : Reg) (b : Byte) : (s.setV x b).fault = s.fault := rfl
@[simp] theorem State.setV_draws (s : State) (x : Reg) (b : Byte) : (s.setV x b).draws = s.draws := rfl

/-! ### setRegBlock -/

@[simp] theorem State.setRegBlock_v (s : State) (bs : List Byte) : (s.setRegBlock bs).v = Vector.ofFn fun k : Fin 16 => bs.getD k.val s.v[k.val] := rfl
@[simp] theorem State.setRegBlock_i (s : State) (bs : List Byte) : (s.setRegBlock bs).i = s.i := rfl
@[simp] theorem State.setRegBlock_pc (s : State) (bs : List Byte) : (s.setRegBlock bs).pc = s.pc := rfl
@[simp] theorem State.setRegBlock_sp (s : State) (bs : List Byte) : (s.setRegBlock bs).sp = s.sp := rfl
@[simp] theorem State.setRegBlock_stack (s : State) (bs : List Byte) : (s.setRegBlock bs).stack = s.stack := rfl
@[simp] theorem State.setRegBlock_dt (s : State) (bs : List Byte) : (s.setRegBlock bs).dt = s.dt := rfl
@[simp] theorem State.setRegBlock_st (s : State) (bs : List Byte) : (s.setRegBlock bs).st = s.st := rfl
@[simp] theorem State.setRegBlock_key (s : State) (bs : List Byte) : (s.setRegBlock bs).key = s.key := rfl
@[simp] theorem State.setRegBlock_mem (s : State) (bs : List Byte) : (s.setRegBlock bs).mem = s.mem := rfl
@[simp] theorem State.setRegBlock_displayChanged (s : State) (bs : List Byte) : (s.setRegBlock bs).displayChanged = s.displayChanged := rfl
@[simp] theorem State.setRegBlock_beep (s : State) (bs : List Byte) : (s.setRegBlock bs).beep = s.beep := rfl
@[simp] theorem State.setRegBlock_halted (s : State) (bs : List Byte) : (s.setRegBlock bs).halted = s.halted := rfl
@[simp] theorem State.setRegBlock_fault (s : State) (bs : List Byte) : (s.setRegBlock bs).fault = s.fault := rfl
@[simp] theorem State.setRegBlock_draws (s : State) (bs : List Byte) : (s.setRegBlock bs).draws = s.draws := rfl

/-! ### store -/

@[simp] theorem State.store_v (s : State) (a : Nat) (b : Byte) : (s.store a b).v = s.v := rfl
@[simp] theorem State.store_i (s : State) (a : Nat) (b : Byte) : (s.store a b).i = s.i := rfl
@[simp] theorem State.store_pc (s : State) (a : Nat) (b : Byte) : (s.store a b).pc = s.pc := rfl
@[simp] theorem State.store_sp (s : State) (a : Nat) (b : Byte) : (s.store a b).sp = s.sp := rfl
@[simp] theorem State.store_stack (s : State) (a : Nat) (b : Byte) : (s.store a b).stack = s.stack := rfl
@[simp] theorem State.store_dt (s : State) (a : Nat) (b : Byte) : (s.store a b).dt = s.dt := rfl
@[simp] theorem State.store_st (s : State) (a : Nat) (b : Byte) : (s.store a b).st = s.st := rfl
@[simp] theorem State.store_key (s : State) (a : Nat) (b : Byte) : (s.store a b).key = s.key := rfl
@[simp] theorem State.store_mem (s : State) (a : Nat) (b : Byte) : (s.store a b).mem = s.mem.write a b := rfl
@[simp] theorem State.store_displayChanged (s : State) (a : Nat) (b : Byte) : (s.store a b).displayChanged = (s.displayChanged || inFramebuffer a) := rfl
@[simp] theorem State.store_beep (s : State) (a : Nat) (b : Byte) : (s.store a b).beep = s.beep := rfl
@[simp] theorem State.store_halted (s : State) (a : Nat) (b : Byte) : (s.store a b).halted = s.halted := rfl
@[simp] theorem State.store_fault (s : State) (a : Nat) (b : Byte) : (s.store a b).fault = s.fault := rfl
@[simp] theorem State.store_draws (s : State) (a : Nat) (b : Byte) : (s.store a b).draws = s.draws := rfl

/-! ### skip -/

@[simp] theorem State.skip_v (s : State) : s.skip.v = s.v := rfl
@[simp] theorem State.skip_i (s : State) : s.skip.i = s.i := rfl
@[simp] theorem State.skip_pc (s : State) : s.skip.pc = s.pc + 2 := rfl
@[simp] theorem State.skip_sp (s : State) : s.skip.sp = s.sp := rfl
@[simp] theorem State.skip_stack (s : State) : s.skip.stack = s.stack := rfl
@[simp] theorem State.skip_dt (s : State) : s.skip.dt = s.dt := rfl
@[simp] theorem State.skip_st (s : State) : s.skip.st = s.st := rfl
@[simp] theorem State.skip_key (s : State) : s.skip.key = s.key := rfl
@[simp] theorem State.skip_mem (s : State) : s.skip.mem = s.mem := rfl
@[simp] theorem State.skip_displayChanged (s : State) : s.skip.displayChanged = s.displayChanged := rfl
@[simp] theorem State.skip_beep (s : State) : s.skip.beep = s.beep := rfl
@[simp] theorem State.skip_halted (s : State) : s.skip.halted = s.halted := rfl
@[simp] theorem State.skip_fault (s : State) : s.skip.fault = s.fault := rfl
@[simp] theorem State.skip_draws (s : State) : s.skip.draws = s.draws := rfl

/-! ### rewind -/

@[simp] theorem State.rewind_v (s : State) : s.rewind.v = s.v := rfl
@[simp] theorem State.rewind_i (s : State) : s.rewind.i = s.i := rfl
@[simp] theorem State.rewind_pc (s : State) : s.rewind.pc = s.pc - 2 := rfl
@[simp] theorem State.rewind_sp (s : State) : s.rewind.sp = s.sp := rfl
@[simp] theorem State.rewind_stack (s : State) : s.rewind.stack = s.stack := rfl
@[simp] theorem State.rewind_dt (s : State) : s.rewind.dt = s.dt := rfl
@[simp] theorem State.rewind_st (s : State) : s.rewind.st = s.st := rfl
@[simp] theorem State.rewind_key (s : State) : s.rewind.key = s.key := rfl
@[simp] theorem State.rewind_mem (s : State) : s.rewind.mem = s.mem := rfl
@[simp] theorem State.rewind_displayChanged (s : State) : s.rewind.displayChanged = s.displayChanged := rfl
@[simp] theorem State.rewind_beep (s : State) : s.rewind.beep = s.beep := rfl
@[simp] theorem State.rewind_halted (s : State) : s.rewind.halted = s.halted := rfl
@[simp] theorem State.rewind_fault (s : State) : s.rewind.fault = s.fault := rfl
@[simp] theorem State.rewind_draws (s : State) : s.rewind.draws = s.draws := rfl

/-! ### push -/

@[simp] theorem State.push_v (s : State) (w : Word) : (s.push w).v = s.v := rfl
@[simp] theorem State.push_i (s : State) (w : Word) : (s.push w).i = s.i := rfl
@[simp] theorem State.push_pc (s : State) (w : Word) : (s.push w).pc = s.pc := rfl
@[simp] theorem State.push_sp (s : State) (w : Word) : (s.push w).sp = s.sp + 1 := rfl
@[simp] theorem State.push_stack (s : State) (w : Word) : (s.push w).stack = s.stack.setIfInBounds s.sp w := rfl
@[simp] theorem State.push_dt (s : State) (w : Word) : (s.push w).dt = s.dt := rfl
@[simp] theorem State.push_st (s : State) (w : Word) : (s.push w).st = s.st := rfl
@[simp] theorem State.push_key (s : State) (w : Word) : (s.push w).key = s.key := rfl
@[simp] theorem State.push_mem (s : State) (w : Word) : (s.push w).mem = s.mem := rfl
@[simp] theorem State.push_displayChanged (s : State) (w : Word) : (s.push w).displayChanged = s.displayChanged := rfl
@[simp] theorem State.push_beep (s : State) (w : Word) : (s.push w).beep = s.beep := rfl
@[simp] theorem State.push_halted (s : State) (w : Word) : (s.push w).halted = s.halted := rfl
@[simp] theorem State.push_fault (s : State) (w : Word) : (s.push w).fault = s.fault := rfl
@[simp] theorem State.push_draws (s : State) (w : Word) : (s.push w).draws = s.draws := rfl

/-! ### popPc -/

@[simp] theorem State.popPc_v (s : State) : s.popPc.v = s.v := rfl
@[simp] theorem State.popPc_i (s : State) : s.popPc.i = s.i := rfl
@[simp] theorem State.popPc_pc (s : State) : s.popPc.pc = s.stackTop := rfl
@[simp] theorem State.popPc_sp (s : State) : s.popPc.sp = s.sp - 1 := rfl
@[simp] theorem State.popPc_stack (s : State) : s.popPc.stack = s.stack := rfl
@[simp] theorem State.popPc_dt (s : State) : s.popPc.dt = s.dt := rfl
@[simp] theorem State.popPc_st (s : State) : s.popPc.st = s.st := rfl
@[simp] theorem State.popPc_key (s : State) : s.popPc.key = s.key := rfl
@[simp] theorem State.popPc_mem (s : State) : s.popPc.mem = s.mem := rfl
@[simp] theorem State.popPc_displayChanged (s : State) : s.popPc.displayChanged = s.displayChanged := rfl
@[simp] theorem State.popPc_beep (s : State) : s.popPc.beep = s.beep := rfl
@[simp] theorem State.popPc_halted (s : State) : s.popPc.halted = s.halted := rfl
@[simp] theorem State.popPc_fault (s : State) : s.popPc.fault = s.fault := rfl
@[simp] theorem State.popPc_draws (s : State) : s.popPc.draws = s.draws := rfl

/-! ### timerStep -/

@[simp] theorem State.timerStep_v (s : State) : s.timerStep.v = s.v := rfl
@[simp] theorem State.timerStep_i (s : State) : s.timerStep.i = s.i := rfl
@[simp] theorem State.timerStep_pc (s : State) : s.timerStep.pc = s.pc := rfl
@[simp] theorem State.timerStep_sp (s : State) : s.timerStep.sp = s.sp := rfl
@[simp] theorem State.timerStep_stack (s : State) : s.timerStep.stack = s.stack := rfl
@[simp] theorem State.timerStep_dt (s : State) : s.timerStep.dt = timerDecr s.dt := rfl
@[simp] theorem State.timerStep_st (s : State) : s.timerStep.st = timerDecr s.st := rfl
@[simp] theorem State.timerStep_key (s : State) : s.timerStep.key = s.key := rfl
@[simp] theorem State.timerStep_mem (s : State) : s.timerStep.mem = s.mem := rfl
@[simp] theorem State.timerStep_displayChanged (s : State) : s.timerStep.displayChanged = s.displayChanged := rfl
@[simp] theorem State.timerStep_beep (s : State) : s.timerStep.beep = decide (s.st ≠ 0) := rfl
@[simp] theorem State.timerStep_halted (s : State) : s.timerStep.halted = s.halted := rfl
@[simp] theorem State.timerStep_fault (s : State) : s.timerStep.fault = s.fault := rfl
@[simp] theorem State.timerStep_draws (s : State) : s.timerStep.draws = s.draws := rfl

/-! ### beginCycle -/

@[simp] theorem State.beginCycle_v (s : State) : s.beginCycle.v = s.v := rfl
@[simp] theorem State.beginCycle_i (s : State) : s.beginCycle.i = s.i := rfl
@[simp] theorem State.beginCycle_pc (s : State) : s.beginCycle.pc = s.pc := rfl
@[simp] theorem State.beginCycle_sp (s : State) : s.beginCycle.sp = s.sp := rfl
@[simp] theorem State.beginCycle_stack (s : State) : s.beginCycle.stack = s.stack := rfl
@[simp] theorem State.beginCycle_dt (s : State) : s.beginCycle.dt = s.dt := rfl
@[simp] theorem State.beginCycle_st (s : State) : s.beginCycle.st = s.st := rfl
@[simp] theorem State.beginCycle_key (s : State) : s.beginCycle.key = s.key := rfl
@[simp] theorem State.beginCycle_mem (s : State) : s.beginCycle.mem = s.mem := rfl
@[simp] theorem State.beginCycle_displayChanged (s : State) : s.beginCycle.displayChanged = false := rfl
@[simp] theorem State.beginCycle_beep (s : State) : s.beginCycle.beep = s.beep := rfl
@[simp] theorem State.beginCycle_halted (s : State) : s.beginCycle.halted = s.halted := rfl
@[simp] theorem State.beginCycle_fault (s : State) : s.beginCycle.fault = s.fault := rfl
@[simp] theorem State.beginCycle_draws (s : State) : s.beginCycle.draws = s.draws := rfl

/-! ### advance -/

@[simp] theorem State.advance_v (s : State) : s.advance.v = s.v := rfl
@[simp] theorem State.advance_i (s : State) : s.advance.i = s.i := rfl
@[simp] theorem State.advance_pc (s : State) : s.advance.pc = s.pc + 2 := rfl
@[simp] theorem State.advance_sp (s : State) : s.advance.sp = s.sp := rfl
@[simp] theorem State.advance_stack (s : State) : s.advance.stack = s.stack := rfl
@[simp] theorem State.advance_dt (s : State) : s.advance.dt = s.dt := rfl
@[simp] theorem State.advance_st (s : State) : s.advance.st = s.st := rfl
@[simp] theorem State.advance_key (s : State) : s.advance.key = s.key := rfl
@[simp] theorem State.advance_mem (s : State) : s.advance.mem = s.mem := rfl
@[simp] theorem State.advance_displayChanged (s : State) : s.advance.displayChanged = s.displayChanged := rfl
@[simp] theorem State.advance_beep (s : State) : s.advance.beep = s.beep := rfl
@[simp] theorem State.advance_halted (s : State) : s.advance.halted = s.halted := rfl
@[simp] theorem State.advance_fault (s : State) : s.advance.fault = s.fault := rfl
@[simp] theorem State.advance_draws (s : State) : s.advance.draws = s.draws := rfl

/-! ### setKey -/

@[simp] theorem State.setKey_v (s : State) (k : Nat) (b : Bool) : (s.setKey k b).v = s.v := rfl
@[simp] theorem State.setKey_i (s : State) (k : Nat) (b : Bool) : (s.setKey k b).i = s.i := rfl
@[simp] theorem State.setKey_pc (s : State) (k : Nat) (b : Bool) : (s.setKey k b).pc = s.pc := rfl
@[simp] theorem State.setKey_sp (s : State) (k : Nat) (b : Bool) : (s.setKey k b).sp = s.sp := rfl
@[simp] theorem State.setKey_stack (s : State) (k : Nat) (b : Bool) : (s.setKey k b).stack = s.stack := rfl
@[simp] theorem State.setKey_dt (s : State) (k : Nat) (b : Bool) : (s.setKey k b).dt = s.dt := rfl
@[simp] theorem State.setKey_st (s : State) (k : Nat) (b : Bool) : (s.setKey k b).st = s.st := rfl
@[simp] theorem State.setKey_key (s : State) (k : Nat) (b : Bool) : (s.setKey k b).key = s.key.setIfInBounds (k % 16) b := rfl
@[simp] theorem State.setKey_mem (s : State) (k : Nat) (b : Bool) : (s.setKey k b).mem = s.mem := rfl
@[simp] theorem State.setKey_displayChanged (s : State) (k : Nat) (b : Bool) : (s.setKey k b).displayChanged = s.displayChanged := rfl
@[simp] theorem State.setKey_beep (s : State) (k : Nat) (b : Bool) : (s.setKey k b).beep = s.beep := rfl
@[simp] theorem State.setKey_halted (s : State) (k : Nat) (b : Bool) : (s.setKey k b).halted = s.halted := rfl
@[simp] theorem State.setKey_fault (s : State) (k : Nat) (b : Bool) : (s.setKey k b).fault = s.fault := rfl
@[simp] theorem State.setKey_draws (s : State) (k : Nat) (b : Bool) : (s.setKey k b).draws = s.draws := rfl

/-! ### skipIf -/

@[simp] theorem State.skipIf_v (s : State) (c : Bool) : (s.skipIf c).v = s.v := by cases c <;> rfl
@[simp] theorem State.skipIf_i (s : State) (c : Bool) : (s.skipIf c).i = s.i := by cases c <;> rfl
@[simp] theorem State.skipIf_pc (s : State) (c : Bool) : (s.skipIf c).pc = if c then s.pc + 2 else s.pc := by
  cases c <;> rfl
@[simp] theorem State.skipIf_sp (s : State) (c : Bool) : (s.skipIf c).sp = s.sp := by cases c <;> rfl
@[simp] theorem State.skipIf_stack (s : State) (c : Bool) : (s.skipIf c).stack = s.stack := by cases c <;> rfl
@[simp] theorem State.skipIf_dt (s : State) (c : Bool) : (s.skipIf c).dt = s.dt := by cases c <;> rfl
@[simp] theorem State.skipIf_st (s : State) (c : Bool) : (s.skipIf c).st = s.st := by cases c <;> rfl
@[simp] theorem State.skipIf_key (s : State) (c : Bool) : (s.skipIf c).key = s.key := by cases c <;> rfl
@[simp] theorem State.skipIf_mem (s : State) (c : Bool) : (s.skipIf c).mem = s.mem := by cases c <;> rfl
@[simp] theorem State.skipIf_displayChanged (s : State) (c : Bool) : (s.skipIf c).displayChanged = s.displayChanged := by cases c <;> rfl
@[simp] theorem State.skipIf_beep (s : State) (c : Bool) : (s.skipIf c).beep = s.beep := by cases c <;> rfl
@[simp] theorem State.skipIf_halted (s : State) (c : Bool) : (s.skipIf c).halted = s.halted := by cases c <;> rfl
@[simp] theorem State.skipIf_fault (s : State) (c : Bool) : (s.skipIf c).fault = s.fault := by cases c <;> rfl
@[simp] theorem State.skipIf_draws (s : State) (c : Bool) : (s.skipIf c).draws = s.draws := by cases c <;> rfl

/-! ### enterFault: the three parts of the state a fault defines (R308), and the model's counter -/

@[simp] theorem enterFault_halted (f : Fault) (pc : Word) (w : Option Word) (s : State) :
    (enterFault f pc w s).halted = true := rfl
@[simp] theorem enterFault_beep (f : Fault) (pc : Word) (w : Option Word) (s : State) :
    (enterFault f pc w s).beep = false := rfl
@[simp] theorem enterFault_fault (f : Fault) (pc : Word) (w : Option Word) (s : State) :
    (enterFault f pc w s).fault = some { code := f.code, pc := pc, word := w, info := f.info } := rfl
@[simp] theorem enterFault_draws (f : Fault) (pc : Word) (w : Option Word) (s : State) :
    (enterFault f pc w s).draws = s.draws + 1 := rfl

/-- A fault entry shows the fault. -/
theorem enterFault_faulted (f : Fault) (pc : Word) (w : Option Word) (s : State) :
    Faulted f pc w (enterFault f pc w s) := ⟨rfl, rfl, rfl⟩

/-- SP stays in its range through a fault. -/
theorem enterFault_sp_le (f : Fault) (pc : Word) (w : Option Word) (s : State) : (enterFault f pc w s).sp ≤ 16 :=
  Nat.le_of_lt_succ (Config.lostSp s.draws).isLt

/-! ### Registers -/

/-- Reading a register after a write: the written one gives the value, every other its own. -/
theorem State.getV_setV (s : State) (x r : Reg) (b : Byte) :
    (s.setV x b).getV r = if r = x then b else s.getV r := by
  by_cases h : r = x
  · subst h; simp [State.getV]
  · have : x.val ≠ r.val := fun e => h (Fin.ext e.symm)
    simp [State.getV, h, Vector.getElem_set_ne _ _ this]

@[simp] theorem State.getV_setV_same (s : State) (x : Reg) (b : Byte) : (s.setV x b).getV x = b := by
  simp [State.getV_setV]

theorem State.getV_setV_ne (s : State) {x r : Reg} (b : Byte) (h : r ≠ x) : (s.setV x b).getV r = s.getV r := by
  simp [State.getV_setV, h]

/-- Register k after a block load: the block's byte where the block reaches, its own value elsewhere. -/
@[simp] theorem State.getV_setRegBlock (s : State) (bs : List Byte) (r : Reg) :
    (s.setRegBlock bs).getV r = bs.getD r.val (s.getV r) := by
  simp [State.getV]

@[simp] theorem State.getV_store (s : State) (a : Nat) (b : Byte) (r : Reg) : (s.store a b).getV r = s.getV r := by simp [State.getV]
@[simp] theorem State.getV_skipIf (s : State) (c : Bool) (r : Reg) : (s.skipIf c).getV r = s.getV r := by simp [State.getV]
@[simp] theorem State.getV_rewind (s : State) (r : Reg) : s.rewind.getV r = s.getV r := by simp [State.getV]
@[simp] theorem State.getV_push (s : State) (w : Word) (r : Reg) : (s.push w).getV r = s.getV r := by simp [State.getV]
@[simp] theorem State.getV_popPc (s : State) (r : Reg) : s.popPc.getV r = s.getV r := by simp [State.getV]
@[simp] theorem State.getV_timerStep (s : State) (r : Reg) : s.timerStep.getV r = s.getV r := by simp [State.getV]
@[simp] theorem State.getV_beginCycle (s : State) (r : Reg) : s.beginCycle.getV r = s.getV r := by simp [State.getV]
@[simp] theorem State.getV_advance (s : State) (r : Reg) : s.advance.getV r = s.getV r := by simp [State.getV]

/-- A register read does not look past the registers. -/
theorem State.getV_congr {s t : State} (h : t.v = s.v) (r : Reg) : t.getV r = s.getV r := by simp [State.getV, h]

end Sys2Proof.Machine
end

