-- ==== Sys2Proof/Laws/Ops.lean ====
section
/-! SUPPORT. For each shared operation, what it does, said once: memory accesses, blocks, the fetch, the timers, the
sprite pixels. Later proofs cite these instead of unfolding the operation. -/

namespace Sys2Proof.Machine

/-! ### One byte -/

theorem State.memRead_ok (s : State) {a : Nat} (h : a < Config.memSize) : s.memRead a = .ok (s.mem.read a) := by
  simp [State.memRead, h]

theorem State.memRead_error (s : State) {a : Nat} (h : Config.memSize ≤ a) :
    s.memRead a = .error (.memOutOfBounds a) := by
  have : ¬ a < Config.memSize := by omega
  simp [State.memRead, this]

theorem State.memWrite_ok (s : State) {a : Nat} (v : Byte) (h : a < Config.memSize) :
    s.memWrite a v = .ok (s.store a v) := by simp [State.memWrite, h]

theorem State.memWrite_error (s : State) {a : Nat} (v : Byte) (h : Config.memSize ≤ a) :
    s.memWrite a v = .error (.memOutOfBounds a) := by
  have : ¬ a < Config.memSize := by omega
  simp [State.memWrite, this]

/-- A store inside memory keeps the canonical form. -/
theorem State.store_wf {s : State} {a : Nat} (v : Byte) (ha : a < Config.memSize) (h : s.mem.wf = true) :
    (s.store a v).mem.wf = true := Memory.wf_write v ha h

/-! ### Blocks -/

theorem State.bytes_succ (s : State) (a n : Nat) : s.bytes a (n + 1) = s.mem.read a :: s.bytes (a + 1) n := by
  simp only [State.bytes, List.range_succ_eq_map, List.map_cons, List.map_map, Nat.add_zero, List.cons.injEq, true_and]
  exact List.map_congr_left fun k _ => by simp [Nat.add_comm 1 k, Nat.add_assoc]

@[simp] theorem State.bytes_length (s : State) (a n : Nat) : (s.bytes a n).length = n := by simp [State.bytes]

theorem State.bytes_getD (s : State) (a n k : Nat) (h : k < n) : (s.bytes a n).getD k 0 = s.mem.read (a + k) := by
  simp [State.bytes, List.getD, h]

/-- A block read inside memory gives the block's bytes (R63, R70). -/
theorem State.readBlock_ok (s : State) : ∀ n a, a + n ≤ Config.memSize → s.readBlock n a = .ok (s.bytes a n) := by
  intro n
  induction n with
  | zero => intro a _; rfl
  | succ n ih =>
    intro a h
    rw [State.readBlock, State.memRead_ok s (by omega), ih (a + 1) (by omega), State.bytes_succ]

/-- A block read that runs past 0xFFF faults at its first invalid address (R310). -/
theorem State.readBlock_error (s : State) : ∀ n a, 0 < n → Config.memSize < a + n →
    s.readBlock n a = .error (.memOutOfBounds (max a Config.memSize)) := by
  intro n
  induction n with
  | zero => intro a h _; omega
  | succ n ih =>
    intro a _ h
    by_cases ha : a < Config.memSize
    · rw [State.readBlock, State.memRead_ok s ha, ih (a + 1) (by omega) (by omega),
        show max (a + 1) Config.memSize = max a Config.memSize by omega]
    · rw [State.readBlock, State.memRead_error s (by omega), show max a Config.memSize = a by omega]

/-- What a block write that did not fault leaves: only memory and DISPLAY_CHANGED differ (R64, R66). -/
structure State.Wrote (s t : State) (a : Nat) (vs : List Byte) : Prop where
  rest : t = { s with mem := t.mem, displayChanged := t.displayChanged }
  read : ∀ b, t.mem.read b = if a ≤ b ∧ b < a + vs.length then vs.getD (b - a) 0 else s.mem.read b
  changed : t.displayChanged = true ↔
    s.displayChanged = true ∨ ∃ k, k < vs.length ∧ inFramebuffer (a + k) = true
  wf : s.mem.wf = true → t.mem.wf = true

/-- A block write inside memory (R64, R70). -/
theorem State.writeBlock_ok : ∀ (vs : List Byte) (s : State) (a : Nat), a + vs.length ≤ Config.memSize →
    ∃ t, s.writeBlock vs a = .ok t ∧ s.Wrote t a vs := by
  intro vs
  induction vs with
  | nil =>
    intro s a _
    refine ⟨s, rfl, rfl, fun b => ?_, by simp, id⟩
    rw [if_neg (by simp only [List.length_nil]; omega)]
  | cons v vs ih =>
    intro s a h
    simp only [List.length_cons] at h
    obtain ⟨t, ht, w⟩ := ih (s.store a v) (a + 1) (by omega)
    refine ⟨t, by rw [State.writeBlock, State.memWrite_ok s v (by omega)]; exact ht, ?_, fun b => ?_, ?_, fun hw => ?_⟩
    · rw [w.rest]; rfl
    · rw [w.read]
      simp only [State.store_mem, Memory.read_write, List.length_cons]
      by_cases hb : b = a
      · subst hb
        rw [if_neg (by omega), if_pos rfl, if_pos (by omega), Nat.sub_self, List.getD_cons_zero]
      · by_cases hin : a + 1 ≤ b ∧ b < a + 1 + vs.length
        · rw [if_pos hin, if_pos (by omega), show b - a = (b - (a + 1)) + 1 by omega, List.getD_cons_succ]
        · rw [if_neg hin, if_neg hb, if_neg (by omega)]
    · rw [w.changed]
      simp only [State.store_displayChanged, Bool.or_eq_true, List.length_cons]
      constructor
      · rintro ((h1 | h1) | ⟨k, hk, h1⟩)
        · exact .inl h1
        · exact .inr ⟨0, by omega, by simpa using h1⟩
        · exact .inr ⟨k + 1, by omega, by rwa [show a + (k + 1) = a + 1 + k by omega]⟩
      · rintro (h1 | ⟨k, hk, h1⟩)
        · exact .inl (.inl h1)
        · cases k with
          | zero => exact .inl (.inr (by simpa using h1))
          | succ k => exact .inr ⟨k, by omega, by rwa [show a + 1 + k = a + (k + 1) by omega]⟩
    · exact w.wf (State.store_wf v (by omega) hw)

/-- A block write that runs past 0xFFF faults at its first invalid address (R310). -/
theorem State.writeBlock_error : ∀ (vs : List Byte) (s : State) (a : Nat), vs ≠ [] →
    Config.memSize < a + vs.length → s.writeBlock vs a = .error (.memOutOfBounds (max a Config.memSize)) := by
  intro vs
  induction vs with
  | nil => intro s a h _; exact absurd rfl h
  | cons v vs ih =>
    intro s a _ h
    simp only [List.length_cons] at h
    by_cases ha : a < Config.memSize
    · have hvs : vs ≠ [] := by
        rintro rfl
        simp only [List.length_nil] at h
        omega
      rw [State.writeBlock, State.memWrite_ok s v ha]
      simp only
      rw [ih (s.store a v) (a + 1) hvs (by omega), show max (a + 1) Config.memSize = max a Config.memSize by omega]
    · rw [State.writeBlock, State.memWrite_error s v (by omega), show max a Config.memSize = a by omega]

/-- What a block write that did not fault did: its bytes, and they lie in memory. -/
theorem State.writeBlock_inv {s t : State} {vs : List Byte} {a : Nat} (h : s.writeBlock vs a = .ok t) :
    s.Wrote t a vs ∧ (vs = [] ∨ a + vs.length ≤ Config.memSize) := by
  by_cases hv : vs = []
  · subst hv
    cases h
    exact ⟨⟨rfl, fun b => by rw [if_neg (by simp only [List.length_nil]; omega)], by simp, id⟩, .inl rfl⟩
  · by_cases ha : a + vs.length ≤ Config.memSize
    · obtain ⟨u, hu, w⟩ := State.writeBlock_ok vs s a ha
      rw [hu] at h
      cases h
      exact ⟨w, .inr ha⟩
    · rw [State.writeBlock_error vs s a hv (by omega)] at h
      cases h

/-- What a block read that did not fault gave: the bytes there, and they lie in memory. -/
theorem State.readBlock_inv {s : State} {n a : Nat} {bs : List Byte} (h : s.readBlock n a = .ok bs) :
    bs = s.bytes a n ∧ (n = 0 ∨ a + n ≤ Config.memSize) := by
  by_cases hn : n = 0
  · subst hn
    cases h
    exact ⟨rfl, .inl rfl⟩
  · by_cases ha : a + n ≤ Config.memSize
    · rw [State.readBlock_ok s n a ha] at h
      cases h
      exact ⟨rfl, .inr ha⟩
    · rw [State.readBlock_error s n a (by omega) (by omega)] at h
      cases h

/-- What the host's writes leave: only memory differs (R53, R66). -/
structure State.HostWrote (s t : State) (a : Nat) (vs : List Byte) : Prop where
  rest : t = { s with mem := t.mem }
  read : ∀ b, t.mem.read b = if a ≤ b ∧ b < a + vs.length then vs.getD (b - a) 0 else s.mem.read b
  wf : s.mem.wf = true → t.mem.wf = true

/-- The host's block write inside memory (R53). -/
theorem State.hostStoreBlock_ok : ∀ (vs : List Byte) (s : State) (a : Nat), a + vs.length ≤ Config.memSize →
    ∃ t, s.hostStoreBlock vs a = .ok t ∧ s.HostWrote t a vs := by
  intro vs
  induction vs with
  | nil =>
    intro s a _
    refine ⟨s, rfl, rfl, fun b => ?_, id⟩
    rw [if_neg (by simp only [List.length_nil]; omega)]
  | cons v vs ih =>
    intro s a h
    simp only [List.length_cons] at h
    obtain ⟨t, ht, w⟩ := ih { s with mem := s.mem.write a v } (a + 1) (by omega)
    refine ⟨t, by rw [State.hostStoreBlock, State.hostStore, if_pos (by omega)]; exact ht, ?_, fun b => ?_,
      fun hw => w.wf (Memory.wf_write v (by omega) hw)⟩
    · rw [w.rest]
    · rw [w.read]
      simp only [Memory.read_write, List.length_cons]
      by_cases hb : b = a
      · subst hb
        rw [if_neg (by omega), if_pos rfl, if_pos (by omega), Nat.sub_self, List.getD_cons_zero]
      · by_cases hin : a + 1 ≤ b ∧ b < a + 1 + vs.length
        · rw [if_pos hin, if_pos (by omega), show b - a = (b - (a + 1)) + 1 by omega, List.getD_cons_succ]
        · rw [if_neg hin, if_neg hb, if_neg (by omega)]

/-- The host's block write that runs past 0xFFF faults at its first invalid address (R345). -/
theorem State.hostStoreBlock_error : ∀ (vs : List Byte) (s : State) (a : Nat), vs ≠ [] →
    Config.memSize < a + vs.length → s.hostStoreBlock vs a = .error (.memOutOfBounds (max a Config.memSize)) := by
  intro vs
  induction vs with
  | nil => intro s a h _; exact absurd rfl h
  | cons v vs ih =>
    intro s a _ h
    simp only [List.length_cons] at h
    by_cases ha : a < Config.memSize
    · have hvs : vs ≠ [] := by
        rintro rfl
        simp only [List.length_nil] at h
        omega
      rw [State.hostStoreBlock, State.hostStore, if_pos ha]
      simp only
      rw [ih _ (a + 1) hvs (by omega), show max (a + 1) Config.memSize = max a Config.memSize by omega]
    · rw [State.hostStoreBlock, State.hostStore, if_neg ha, show max a Config.memSize = a by omega]

/-! ### The fetch -/

/-- A fetch from an address at most 0xFFE gives the big-endian word there (R67, R122). -/
theorem State.fetch_ok (s : State) (h : s.pc.toNat + 1 < Config.memSize) :
    s.fetch = .ok (beWord (s.mem.read s.pc.toNat) (s.mem.read (s.pc.toNat + 1))) := by
  rw [State.fetch, State.memRead_ok s (by omega), State.memRead_ok s h]

/-- A fetch from any other address faults at the first invalid one (R122). -/
theorem State.fetch_error (s : State) (h : Config.memSize ≤ s.pc.toNat + 1) :
    s.fetch = .error (.memOutOfBounds (max s.pc.toNat Config.memSize)) := by
  by_cases hp : s.pc.toNat < Config.memSize
  · rw [State.fetch, State.memRead_ok s hp, State.memRead_error s h,
      show max s.pc.toNat Config.memSize = s.pc.toNat + 1 by omega]
  · rw [State.fetch, State.memRead_error s (by omega), show max s.pc.toNat Config.memSize = s.pc.toNat by omega]

/-! ### Timers and flags -/

/-- A decrement takes one from a timer that is not zero and leaves zero alone (R40, R126). -/
theorem timerDecr_toNat (t : Byte) : (timerDecr t).toNat = t.toNat - 1 := by
  unfold timerDecr
  split
  · rename_i h; simp [h]
  · rename_i h
    have : t.toNat ≠ 0 := fun e => h (BitVec.eq_of_toNat_eq (by simpa using e))
    have := t.isLt
    rw [BitVec.toNat_sub, show (1 : Byte).toNat = 1 from rfl]
    omega

@[simp] theorem flagByte_true : flagByte true = 1 := rfl
@[simp] theorem flagByte_false : flagByte false = 0 := rfl

/-! ### The keypad -/

/-- A pressed key below which none is pressed is the lowest pressed key (R272). -/
theorem State.lowestKey_some (s : State) (k : Fin 16) (h : s.key[k.val] = true)
    (hl : ∀ j : Fin 16, j < k → s.key[j.val] = false) : s.lowestKey = some k := by
  unfold State.lowestKey
  rw [List.find?_eq_some_iff_getElem]
  exact ⟨h, k.val, by simp, by simp, fun j hj => by simpa using hl ⟨j, by omega⟩ hj⟩

/-- With no key pressed there is no lowest pressed key (R272). -/
theorem State.lowestKey_none (s : State) (h : ∀ k : Fin 16, s.key[k.val] = false) : s.lowestKey = none := by
  unfold State.lowestKey
  rw [List.find?_eq_none]
  exact fun k _ => by simpa using h k

/-! ### Sprite pixels -/

/-- Every pixel on the screen lies in the framebuffer (R73). -/
theorem pixelAddr_bounds {x y : Nat} (hx : x < Config.fbWidth) (hy : y < Config.fbHeight) :
    Config.fbBase ≤ pixelAddr x y ∧ pixelAddr x y < Config.fbBase + Config.fbSize := by
  simp only [pixelAddr, Config.fbBase, Config.fbSize, Config.fbWidth, Config.fbHeight] at *
  omega

/-- What drawing may leave: only memory and DISPLAY_CHANGED differ, memory only inside the framebuffer, and memory
keeps its canonical form. -/
structure State.Drew (s t : State) : Prop where
  rest : t = { s with mem := t.mem, displayChanged := t.displayChanged }
  outside : ∀ a, a < Config.fbBase ∨ Config.fbBase + Config.fbSize ≤ a → t.mem.read a = s.mem.read a
  wf : s.mem.wf = true → t.mem.wf = true

theorem State.Drew.refl (s : State) : s.Drew s := ⟨rfl, fun _ _ => rfl, id⟩

theorem State.Drew.trans {s t u : State} (h : s.Drew t) (k : t.Drew u) : s.Drew u :=
  ⟨by rw [k.rest, h.rest], fun a ha => (k.outside a ha).trans (h.outside a ha), fun w => k.wf (h.wf w)⟩

theorem drawPixel_drew (x y : Nat) (on : Bool) (p : State × Bool) : p.1.Drew (drawPixel x y on p).1 := by
  unfold drawPixel
  split
  · rename_i h
    simp only [Bool.and_eq_true, decide_eq_true_eq] at h
    have hb := pixelAddr_bounds h.1.2 h.2
    refine ⟨rfl, fun a ha => ?_, fun w => State.store_wf _ ?_ w⟩
    · rw [State.store_mem, Memory.read_write_ne _ _ (by omega)]
    · simp only [Config.fbBase, Config.fbSize, Config.memSize] at hb ⊢
      omega
  · exact State.Drew.refl _

theorem drawRow_drew (x0 y : Nat) (row : Byte) : ∀ n b p, State.Drew p.1 (drawRow x0 y row n b p).1 := by
  intro n
  induction n with
  | zero => intro b p; exact State.Drew.refl _
  | succ n ih => intro b p; exact (drawPixel_drew _ _ _ p).trans (ih (b + 1) _)

/-- Drawing a sprite changes nothing but the framebuffer and DISPLAY_CHANGED (R243). -/
theorem drawRows_drew (x0 : Nat) : ∀ rows y p, State.Drew p.1 (drawRows x0 rows y p).1 := by
  intro rows
  induction rows with
  | nil => intro y p; exact State.Drew.refl _
  | cons row rows ih => intro y p; exact (drawRow_drew x0 y row 8 0 p).trans (ih (y + 1) _)

end Sys2Proof.Machine
end

