-- ==== Sys2Proof/Laws/Frames.lean ====
section
/-! SUPPORT. The frames of Sys2Proof/Safety.lean for the shared updates: which parts each update leaves unchanged. -/

namespace Sys2Proof.Machine

theorem SameControl.refl (s : State) : SameControl s s := ⟨rfl, rfl, rfl, rfl, rfl, rfl⟩

/-- Writing the register file leaves the control parts alone. -/
theorem sameControl_v (s : State) (v : Vector Byte 16) : SameControl s { s with v := v } :=
  ⟨rfl, rfl, rfl, rfl, rfl, rfl⟩

/-- Writing one register changes no other part. -/
theorem onlyV_setV (s : State) (x : Reg) (b : Byte) : OnlyV [x] s (s.setV x b) :=
  ⟨fun r hr => State.getV_setV_ne s b (by simpa using hr), rfl, rfl, ⟨rfl, rfl, rfl, rfl, rfl, rfl⟩, ⟨rfl, rfl⟩,
    fun _ => rfl, rfl⟩

/-- Writing two registers, one after the other, changes no other part. -/
theorem onlyV_setV_setV (s : State) (x y : Reg) (b c : Byte) : OnlyV [x, y] s ((s.setV x b).setV y c) :=
  ⟨fun r hr => by
      simp only [List.mem_cons, List.not_mem_nil, or_false, not_or] at hr
      rw [State.getV_setV_ne _ c hr.2, State.getV_setV_ne _ b hr.1],
    rfl, rfl, ⟨rfl, rfl, rfl, rfl, rfl, rfl⟩, ⟨rfl, rfl⟩, fun _ => rfl, rfl⟩

/-- The order of the listed registers does not matter. -/
theorem OnlyV.mono {rs rs' : List Reg} {s t : State} (h : OnlyV rs s t) (hrs : ∀ r, r ∉ rs' → r ∉ rs) :
    OnlyV rs' s t := ⟨fun r hr => h.v r (hrs r hr), h.i, h.pc, h.control, h.timers, h.mem, h.displayChanged⟩

/-- A write of PC changes no other part. -/
theorem onlyPc_pc (s : State) (p : Word) : OnlyPc s { s with pc := p } :=
  ⟨fun _ => rfl, rfl, ⟨rfl, rfl, rfl, rfl, rfl, rfl⟩, ⟨rfl, rfl⟩, fun _ => rfl, rfl⟩

/-- A skip changes only PC, taken or not. -/
theorem onlyPc_skipIf (s : State) (c : Bool) : OnlyPc s (s.skipIf c) := by
  cases c
  · exact onlyPc_pc s s.pc
  · exact onlyPc_pc s (s.pc + 2)

/-- A write of I changes no other part. -/
theorem onlyI_i (s : State) (w : Word) : OnlyI s { s with i := w } :=
  ⟨fun _ => rfl, rfl, ⟨rfl, rfl, rfl, rfl, rfl, rfl⟩, ⟨rfl, rfl⟩, fun _ => rfl, rfl⟩

/-- A block write changes only its bytes and DISPLAY_CHANGED. -/
theorem State.Wrote.onlyVAndMem {s t : State} {a : Nat} {vs : List Byte} (w : s.Wrote t a vs) :
    OnlyVAndMem [] a vs.length s t := by
  have hr := w.rest
  refine ⟨fun r _ => State.getV_congr (by rw [hr]) r, by rw [hr], by rw [hr], ?_, ?_, fun b hb => ?_⟩
  · constructor <;> rw [hr]
  · constructor <;> rw [hr]
  · rw [w.read, if_neg (by omega)]

end Sys2Proof.Machine
end

