-- ==== Sys2Proof/Laws/Exec.lean ====
section
/-! SUPPORT. What the meanings that access memory can do, said once: the fault of their bounds check, or their effect.
Later proofs cite these instead of unfolding the meanings and the blocks below them. -/

namespace Sys2Proof.Machine

@[simp] theorem bcdDigits_length (b : Byte) : (bcdDigits b).length = 3 := rfl

@[simp] theorem State.regBlock_length (s : State) (x : Reg) : (s.regBlock x).length = x.val + 1 := by
  have := x.isLt
  simp [State.regBlock]

theorem State.regBlock_ne_nil (s : State) (x : Reg) : s.regBlock x ≠ [] := fun h => by
  have := congrArg List.length h
  simp at this

/-- Byte k of V0..VX is VK (R218). -/
theorem State.regBlock_getD (s : State) {x k : Reg} (h : k ≤ x) : (s.regBlock x).getD k.val 0 = s.getV k := by
  have hk : k.val < x.val + 1 := Nat.lt_succ_of_le h
  simp [State.regBlock, List.getD, State.getV, hk]

theorem State.dataAddr_zero (s : State) : s.dataAddr 0 = s.i.toNat := rfl

/-- The first invalid address of a block from I on that runs past memory. -/
theorem firstInvalid (a : Nat) : max a Config.memSize = if 0xFFF < a then a else 0x1000 := by
  show max a 4096 = _
  split <;> omega

/-- The three digits of a byte as numbers (R217). -/
theorem bcdDigits_hundreds (b : Byte) : ((bcdDigits b).getD 0 0).toNat = b.toNat / 100 := by
  have := b.isLt
  simp only [bcdDigits, List.getD_cons_zero, BitVec.toNat_ofNat]
  omega

theorem bcdDigits_tens (b : Byte) : ((bcdDigits b).getD 1 0).toNat = b.toNat / 10 % 10 := by
  have := b.isLt
  simp only [bcdDigits, List.getD_cons_zero, List.getD_cons_succ, BitVec.toNat_ofNat]
  omega

theorem bcdDigits_ones (b : Byte) : ((bcdDigits b).getD 2 0).toNat = b.toNat % 10 := by
  have := b.isLt
  simp only [bcdDigits, List.getD_cons_zero, List.getD_cons_succ, BitVec.toNat_ofNat]
  omega

/-- Byte k of a block that was written at `a` (R64, R70). -/
theorem State.Wrote.read_at {s t : State} {a : Nat} {vs : List Byte} (w : s.Wrote t a vs) {k : Nat}
    (h : k < vs.length) : t.mem.read (a + k) = vs.getD k 0 := by
  rw [w.read, if_pos (by omega), Nat.add_sub_cancel_left]

/-- A block of at least one byte that ends inside memory sets DISPLAY_CHANGED exactly when its last byte lies in the
framebuffer (R66). -/
theorem State.Wrote.changed_iff {s t : State} {a : Nat} {vs : List Byte} (w : s.Wrote t a vs) {n : Nat}
    (hl : vs.length = n + 1) (ha : a + n ≤ 0xFFF) :
    t.displayChanged = true ↔ s.displayChanged = true ∨ 0xF00 ≤ a + n := by
  rw [w.changed]
  simp only [hl, inFramebuffer, Bool.and_eq_true, decide_eq_true_eq, Config.fbBase, Config.fbSize]
  constructor
  · rintro (h | ⟨k, hk, h1, h2⟩)
    · exact .inl h
    · exact .inr (by omega)
  · rintro (h | h1)
    · exact .inl h
    · exact .inr ⟨n, by omega, by omega, by omega⟩

/-- V0..VX after loading a block of X + 1 bytes into them (R219). -/
theorem State.setRegBlock_bytes_le (s : State) (a : Nat) {x k : Reg} (h : k ≤ x) :
    (s.setRegBlock (s.bytes a (x.val + 1))).getV k = s.mem.read (a + k.val) := by
  have hk : k.val < x.val + 1 := Nat.lt_succ_of_le h
  have hb := State.bytes_getD s a (x.val + 1) k.val hk
  have hl := State.bytes_length s a (x.val + 1)
  rw [State.getV_setRegBlock]
  rw [List.getD_eq_getElem _ _ (by omega)] at hb ⊢
  exact hb

/-- The registers above VX after it (R219). -/
theorem State.setRegBlock_bytes_gt (s : State) (a : Nat) {x k : Reg} (h : x < k) :
    (s.setRegBlock (s.bytes a (x.val + 1))).getV k = s.getV k := by
  have hk : x.val < k.val := h
  rw [State.getV_setRegBlock, List.getD_eq_default _ _ (by rw [State.bytes_length]; omega)]

/-- 00E0 writes the 256 zeros and sets DISPLAY_CHANGED (R241). -/
theorem execCls_spec (s : State) : ∃ t, s.Wrote t Config.fbBase (List.replicate Config.fbSize 0) ∧
    exec .cls s = .next { t with displayChanged := true } := by
  obtain ⟨t, ht, w⟩ := State.writeBlock_ok (List.replicate Config.fbSize 0) s Config.fbBase
    (by rw [List.length_replicate]; decide)
  refine ⟨t, w, ?_⟩
  show execCls s = _
  rw [execCls, ht]

/-- FX33 inside memory (R217). -/
theorem execLdB_ok (x : Reg) (s : State) (h : s.i.toNat + 2 ≤ 0xFFF) :
    ∃ t, exec (.ldB x) s = .next t ∧ s.Wrote t s.i.toNat (bcdDigits (s.getV x)) := by
  obtain ⟨t, ht, w⟩ := State.writeBlock_ok (bcdDigits (s.getV x)) s s.i.toNat
    (by rw [bcdDigits_length]; show s.i.toNat + 3 ≤ 4096; omega)
  refine ⟨t, ?_, w⟩
  show execLdB x s = _
  rw [execLdB, State.dataAddr_zero, ht]
  rfl

/-- FX33 past 0xFFF (R217, R310). -/
theorem execLdB_fault (x : Reg) (s : State) (h : 0xFFF < s.i.toNat + 2) :
    exec (.ldB x) s = raise (.memOutOfBounds (max s.i.toNat Config.memSize)) (.ldB x) s := by
  show execLdB x s = _
  rw [execLdB, State.dataAddr_zero, State.writeBlock_error _ s _ (by simp [bcdDigits])
    (by rw [bcdDigits_length]; show 4096 < s.i.toNat + 3; omega)]
  rfl

/-- FX55 inside memory (R218). -/
theorem execLdMemVx_ok (x : Reg) (s : State) (h : s.i.toNat + x.val ≤ 0xFFF) :
    ∃ t, exec (.ldMemVx x) s = .next t ∧ s.Wrote t s.i.toNat (s.regBlock x) := by
  obtain ⟨t, ht, w⟩ := State.writeBlock_ok (s.regBlock x) s s.i.toNat
    (by rw [State.regBlock_length]; show s.i.toNat + (x.val + 1) ≤ 4096; omega)
  refine ⟨t, ?_, w⟩
  show execLdMemVx x s = _
  rw [execLdMemVx, State.dataAddr_zero, ht]
  rfl

/-- FX55 past 0xFFF (R218, R310). -/
theorem execLdMemVx_fault (x : Reg) (s : State) (h : 0xFFF < s.i.toNat + x.val) :
    exec (.ldMemVx x) s = raise (.memOutOfBounds (max s.i.toNat Config.memSize)) (.ldMemVx x) s := by
  show execLdMemVx x s = _
  rw [execLdMemVx, State.dataAddr_zero, State.writeBlock_error _ s _ (s.regBlock_ne_nil x)
    (by rw [State.regBlock_length]; show 4096 < s.i.toNat + (x.val + 1); omega)]
  rfl

/-- FX65 inside memory (R219). -/
theorem execLdVxMem_ok (x : Reg) (s : State) (h : s.i.toNat + x.val ≤ 0xFFF) :
    exec (.ldVxMem x) s = .next (s.setRegBlock (s.bytes s.i.toNat (x.val + 1))) := by
  show execLdVxMem x s = _
  rw [execLdVxMem, State.dataAddr_zero, State.readBlock_ok s _ _ (by show s.i.toNat + (x.val + 1) ≤ 4096; omega)]

/-- FX65 past 0xFFF (R219, R310). -/
theorem execLdVxMem_fault (x : Reg) (s : State) (h : 0xFFF < s.i.toNat + x.val) :
    exec (.ldVxMem x) s = raise (.memOutOfBounds (max s.i.toNat Config.memSize)) (.ldVxMem x) s := by
  show execLdVxMem x s = _
  rw [execLdVxMem, State.dataAddr_zero, State.readBlock_error s _ _ (by omega)
    (by show 4096 < s.i.toNat + (x.val + 1); omega)]

/-- The state and the collision a draw inside memory ends with (R243). -/
def drawn (x y : Reg) (n : Count) (s : State) : State × Bool :=
  drawRows (spriteCol (s.getV x)) (s.bytes s.i.toNat (Config.spriteRows n)) (spriteRow (s.getV y)) (s, false)

/-- DXYN inside memory (R243). -/
theorem execDrw_ok (x y : Reg) (n : Count) (s : State) (h : s.i.toNat + n.val ≤ 0xFFF) :
    exec (.drw x y n) s =
      .next { (drawn x y n s).1.setV VF (collisionFlag (drawn x y n s).2) with displayChanged := true } := by
  show execDrw x y n s = _
  rw [execDrw, State.dataAddr_zero,
    State.readBlock_ok s _ _ (by show s.i.toNat + (n.val + 1) ≤ 4096; omega)]
  rfl

/-- DXYN past 0xFFF, clipped rows included (R243, R310). -/
theorem execDrw_fault (x y : Reg) (n : Count) (s : State) (h : 0xFFF < s.i.toNat + n.val) :
    exec (.drw x y n) s = raise (.memOutOfBounds (max s.i.toNat Config.memSize)) (.drw x y n) s := by
  show execDrw x y n s = _
  rw [execDrw, State.dataAddr_zero, State.readBlock_error s (Config.spriteRows n) _ (Nat.succ_pos n.val)
    (by show 4096 < s.i.toNat + (n.val + 1); omega)]

/-- A draw leaves everything but the framebuffer and DISPLAY_CHANGED (R243). -/
theorem drawn_drew (x y : Reg) (n : Count) (s : State) : s.Drew (drawn x y n s).1 :=
  drawRows_drew _ _ _ (s, false)

/-! ### What an instruction that halts the core did -/

/-- A meaning halts a running core only by raising a fault of its own (R10, R308). -/
theorem exec_raised {i : Instr} {s t : State} (h : exec i s = .next t) (hs : s.halted = false) (ht : t.halted = true) :
    ∃ f, t = enterFault f (s.pc - 2) (some (encode i)) s := by
  have absurd_halted : ∀ {p : Prop}, s.halted = true → p := fun e => Bool.noConfusion (hs.symm.trans e)
  cases i
  case cls =>
    obtain ⟨u, w, hu⟩ := execCls_spec s
    rw [hu] at h
    cases h
    exact absurd_halted (by rwa [show s.halted = u.halted by rw [w.rest]])
  case ret =>
    simp only [exec] at h; unfold execRet raise at h
    split at h <;> cases h <;> first | exact ⟨_, rfl⟩ | simp_all
  case sys => cases h; exact ⟨_, rfl⟩
  case call =>
    simp only [exec] at h; unfold execCall raise at h
    split at h <;> cases h <;> first | exact ⟨_, rfl⟩ | simp_all
  case drw x y n =>
    by_cases hb : s.i.toNat + n.val ≤ 0xFFF
    · rw [execDrw_ok x y n s hb] at h
      cases h
      exact absurd_halted (by rwa [show s.halted = (drawn x y n s).1.halted by rw [(drawn_drew x y n s).rest]])
    · rw [execDrw_fault x y n s (by omega)] at h; cases h; exact ⟨_, rfl⟩
  case skp =>
    simp only [exec] at h; unfold execSkp raise at h
    split at h <;> cases h <;> first | exact ⟨_, rfl⟩ | simp_all
  case sknp =>
    simp only [exec] at h; unfold execSknp raise at h
    split at h <;> cases h <;> first | exact ⟨_, rfl⟩ | simp_all
  case ldVxK x => simp only [exec] at h; unfold execLdVxK at h; split at h <;> cases h <;> simp_all
  case ldF =>
    simp only [exec] at h; unfold execLdF raise at h
    split at h <;> cases h <;> first | exact ⟨_, rfl⟩ | simp_all
  case ldB x =>
    by_cases hb : s.i.toNat + 2 ≤ 0xFFF
    · obtain ⟨u, hu, w⟩ := execLdB_ok x s hb
      rw [hu] at h
      cases h
      exact absurd_halted (by rwa [show s.halted = t.halted by rw [w.rest]])
    · rw [execLdB_fault x s (by omega)] at h; cases h; exact ⟨_, rfl⟩
  case ldMemVx x =>
    by_cases hb : s.i.toNat + x.val ≤ 0xFFF
    · obtain ⟨u, hu, w⟩ := execLdMemVx_ok x s hb
      rw [hu] at h
      cases h
      exact absurd_halted (by rwa [show s.halted = t.halted by rw [w.rest]])
    · rw [execLdMemVx_fault x s (by omega)] at h; cases h; exact ⟨_, rfl⟩
  case ldVxMem x =>
    by_cases hb : s.i.toNat + x.val ≤ 0xFFF
    · rw [execLdVxMem_ok x s hb] at h; cases h; simp [hs] at ht
    · rw [execLdVxMem_fault x s (by omega)] at h; cases h; exact ⟨_, rfl⟩
  all_goals (cases h; simp [hs] at ht)

end Sys2Proof.Machine
end

