-- ==== Sys2Proof/Laws/Graphics.lean ====
section
/-! SUPPORT. What drawing does to the pixels, said once for one pixel, one row and a whole sprite: which pixels are
toggled, and when a collision is noted. -/

namespace Sys2Proof.Machine

/-- The mask of a pixel is its one bit (R73). -/
theorem pixelMask_getLsbD (x k : Nat) : (pixelMask x).getLsbD k = decide (k = pixelBit x) := by
  have hb : pixelBit x < 8 := by unfold pixelBit; omega
  unfold pixelMask
  generalize pixelBit x = b at hb
  by_cases hk : k < 8
  · revert k
    revert b
    decide
  · rw [BitVec.getLsbD_of_ge _ _ (by omega)]
    exact (decide_eq_false (by omega)).symm

/-- The mask picks the pixel's bit out of its byte (R243). -/
theorem and_pixelMask_ne_zero (v : Byte) (x : Nat) : (v &&& pixelMask x != 0) = v.getLsbD (pixelBit x) := by
  have hb : pixelBit x < 8 := by unfold pixelBit; omega
  unfold pixelMask
  generalize pixelBit x = b at hb
  interval_cases b <;> revert v <;> decide

/-- Two pixels on the screen share their byte and bit only when they are the same pixel (R73). -/
theorem pixel_unique {x y px py : Nat} (hx : x < Config.fbWidth) (hpx : px < Config.fbWidth)
    (ha : pixelAddr px py = pixelAddr x y) (hb : pixelBit px = pixelBit x) : px = x ∧ py = y := by
  simp only [pixelAddr, pixelBit, Config.fbWidth] at *
  omega

/-- One sprite pixel toggles its own pixel and no other, and notes a collision when it was set (R243). -/
theorem drawPixel_spec (x y : Nat) (on : Bool) (p : State × Bool) :
    (∀ px py, px < Config.fbWidth → py < Config.fbHeight → (drawPixel x y on p).1.mem.pixel px py =
      (p.1.mem.pixel px py ^^ (on && decide (px = x) && decide (py = y)))) ∧
    (drawPixel x y on p).2 =
      (p.2 || (on && decide (x < Config.fbWidth) && decide (y < Config.fbHeight) && p.1.mem.pixel x y)) := by
  unfold drawPixel
  split
  · rename_i h
    simp only [Bool.and_eq_true, decide_eq_true_eq] at h
    obtain ⟨⟨hon, hx⟩, hy⟩ := h
    refine ⟨fun px py hpx hpy => ?_, ?_⟩
    · simp only [Memory.pixel, State.store_mem, Memory.read_write, hon, Bool.true_and]
      by_cases ha : pixelAddr px py = pixelAddr x y
      · rw [if_pos ha, BitVec.getLsbD_xor, pixelMask_getLsbD, ha]
        congr 1
        by_cases hb : pixelBit px = pixelBit x
        · obtain ⟨rfl, rfl⟩ := pixel_unique hx hpx ha hb
          simp
        · have : ¬ (px = x) := fun e => hb (by rw [e])
          simp [hb, this]
      · rw [if_neg ha]
        have : ¬ (px = x ∧ py = y) := fun e => ha (by rw [e.1, e.2])
        by_cases h1 : px = x
        · have h2 : ¬ py = y := fun e => this ⟨h1, e⟩
          simp [h2]
        · simp [h1]
    · simp only [and_pixelMask_ne_zero, hon, hx, hy, decide_true, Bool.true_and]
      rfl
  · rename_i h
    have h' : (on && decide (x < Config.fbWidth) && decide (y < Config.fbHeight)) = false := by simpa using h
    refine ⟨fun px py hpx hpy => ?_, by simp [h']⟩
    have : (on && decide (px = x) && decide (py = y)) = false := by
      cases on
      · rfl
      · by_cases h1 : px = x
        · by_cases h2 : py = y
          · subst h1 h2
            simp [hpx, hpy] at h'
          · simp [h2]
        · simp [h1]
    simp [this]

/-- The pixels of one row from bit `b` on: those of its 1 bits are toggled (R243). -/
theorem drawRow_spec (x0 y : Nat) (row : Byte) : ∀ n b p,
    (∀ px py, px < Config.fbWidth → py < Config.fbHeight → (drawRow x0 y row n b p).1.mem.pixel px py =
      (p.1.mem.pixel px py ^^
        (decide (py = y) && decide (x0 + b ≤ px) && decide (px < x0 + b + n) && rowBit row (px - x0)))) ∧
    ((drawRow x0 y row n b p).2 = true ↔ p.2 = true ∨ ∃ px, px < Config.fbWidth ∧ y < Config.fbHeight ∧
      x0 + b ≤ px ∧ px < x0 + b + n ∧ rowBit row (px - x0) = true ∧ p.1.mem.pixel px y = true) := by
  intro n
  induction n with
  | zero =>
    intro b p
    refine ⟨fun px py _ _ => ?_, ?_⟩
    · have : ¬ (x0 + b ≤ px ∧ px < x0 + b) := by omega
      by_cases h : x0 + b ≤ px
      · have h2 : ¬ px < x0 + b := by omega
        simp [drawRow, h2]
      · simp [drawRow, h]
    · constructor
      · exact .inl
      · rintro (h | ⟨px, -, -, h1, h2, -⟩)
        · exact h
        · omega
  | succ n ih =>
    intro b p
    obtain ⟨q1, q2⟩ := drawPixel_spec (x0 + b) y (rowBit row b) p
    obtain ⟨r1, r2⟩ := ih (b + 1) (drawPixel (x0 + b) y (rowBit row b) p)
    rw [drawRow]
    refine ⟨fun px py hx hy => ?_, ?_⟩
    · rw [r1 px py hx hy, q1 px py hx hy, Bool.xor_assoc]
      congr 1
      by_cases hpy : py = y
      · rcases Nat.lt_trichotomy px (x0 + b) with h | h | h
        · have h1 : ¬ x0 + b ≤ px := by omega
          have h2 : ¬ x0 + (b + 1) ≤ px := by omega
          have h3 : ¬ px = x0 + b := by omega
          simp [h1, h2, h3]
        · subst h
          have h2 : ¬ x0 + (b + 1) ≤ x0 + b := by omega
          have h3 : x0 + b - x0 = b := by omega
          simp [hpy, h2, h3]
        · have h1 : x0 + b ≤ px := by omega
          have h2 : x0 + (b + 1) ≤ px := by omega
          have h3 : ¬ px = x0 + b := by omega
          have h4 : x0 + (b + 1) + n = x0 + b + (n + 1) := by omega
          simp [hpy, h1, h2, h3, h4]
      · simp [hpy]
    · rw [r2, q2]
      simp only [Bool.or_eq_true, Bool.and_eq_true, decide_eq_true_eq]
      constructor
      · rintro ((h | ⟨⟨⟨hb, hx⟩, hy⟩, hp⟩) | ⟨px, hx, hy, h1, h2, h3, h4⟩)
        · exact .inl h
        · refine .inr ⟨x0 + b, hx, hy, by omega, by omega, ?_, hp⟩
          rwa [Nat.add_sub_cancel_left]
        · refine .inr ⟨px, hx, hy, by omega, by omega, h3, ?_⟩
          rw [q1 px y hx hy, show decide (px = x0 + b) = false from decide_eq_false (by omega)] at h4
          simpa using h4
      · rintro (h | ⟨px, hx, hy, h1, h2, h3, h4⟩)
        · exact .inl (.inl h)
        · by_cases e : px = x0 + b
          · subst e
            rw [Nat.add_sub_cancel_left] at h3
            exact .inl (.inr ⟨⟨⟨h3, hx⟩, hy⟩, h4⟩)
          · refine .inr ⟨px, hx, hy, by omega, by omega, h3, ?_⟩
            rw [q1 px y hx hy, show decide (px = x0 + b) = false from decide_eq_false e]
            simpa using h4

/-- The first row of a sprite and the rows below it, bit by bit. -/
theorem spriteBit_cons (row : Byte) (rows : List Byte) (x0 y0 px py : Nat) :
    spriteBit (row :: rows) x0 y0 px py =
      ((decide (py = y0) && decide (x0 + 0 ≤ px) && decide (px < x0 + 0 + 8) && rowBit row (px - x0)) ^^
        spriteBit rows x0 (y0 + 1) px py) := by
  unfold spriteBit
  rcases Nat.lt_trichotomy py y0 with h | h | h
  · have h1 : ¬ y0 ≤ py := by omega
    have h2 : ¬ y0 + 1 ≤ py := by omega
    have h3 : ¬ py = y0 := by omega
    simp [h1, h2, h3]
  · subst h
    have h2 : ¬ py + 1 ≤ py := by omega
    simp [h2]
  · obtain ⟨k, rfl⟩ : ∃ k, py = y0 + 1 + k := ⟨py - (y0 + 1), by omega⟩
    have h1 : y0 ≤ y0 + 1 + k := by omega
    have h2 : y0 + 1 ≤ y0 + 1 + k := by omega
    have h3 : ¬ y0 + 1 + k = y0 := by omega
    have h4 : y0 + 1 + k - y0 = k + 1 := by omega
    have h5 : y0 + 1 + k - (y0 + 1) = k := by omega
    have h6 : (y0 + 1 + k < y0 + (rows.length + 1)) = (y0 + 1 + k < y0 + 1 + rows.length) := by
      apply propext; omega
    simp [h1, h3, h4, h5, h6]

/-- The pixels of a whole sprite: those of its 1 bits on the screen are toggled, and a collision is noted when one of
them was set before the draw (R243, R247). -/
theorem drawRows_spec (x0 : Nat) : ∀ rows y p,
    (∀ px py, px < Config.fbWidth → py < Config.fbHeight → (drawRows x0 rows y p).1.mem.pixel px py =
      (p.1.mem.pixel px py ^^ spriteBit rows x0 y px py)) ∧
    ((drawRows x0 rows y p).2 = true ↔ p.2 = true ∨ ∃ px py, px < Config.fbWidth ∧ py < Config.fbHeight ∧
      spriteBit rows x0 y px py = true ∧ p.1.mem.pixel px py = true) := by
  intro rows
  induction rows with
  | nil =>
    intro y p
    have hn : ∀ px py, spriteBit [] x0 y px py = false := fun px py => by
      unfold spriteBit
      by_cases h : y ≤ py <;> simp [h]
    refine ⟨fun px py _ _ => by simp [drawRows, hn], ?_⟩
    constructor
    · exact .inl
    · rintro (h | ⟨px, py, -, -, h, -⟩)
      · exact h
      · rw [hn] at h
        cases h
  | cons row rows ih =>
    intro y p
    obtain ⟨q1, q2⟩ := drawRow_spec x0 y row 8 0 p
    obtain ⟨r1, r2⟩ := ih (y + 1) (drawRow x0 y row 8 0 p)
    have below : ∀ px py, spriteBit rows x0 (y + 1) px py = true → ¬ py = y := fun px py h => by
      simp only [spriteBit, Bool.and_eq_true, decide_eq_true_eq] at h
      omega
    rw [drawRows]
    refine ⟨fun px py hx hy => ?_, ?_⟩
    · rw [r1 px py hx hy, q1 px py hx hy, Bool.xor_assoc, spriteBit_cons]
    · rw [r2, q2]
      constructor
      · rintro ((h | ⟨px, hx, hy, h1, h2, h3, h4⟩) | ⟨px, py, hx, hy, hb, hp⟩)
        · exact .inl h
        · refine .inr ⟨px, y, hx, hy, ?_, h4⟩
          have : spriteBit rows x0 (y + 1) px y = false :=
            Bool.eq_false_iff.mpr fun e => below px y e rfl
          rw [spriteBit_cons, this]
          simp only [h1, h2, h3, decide_true, Bool.and_true, Bool.xor_false]
        · refine .inr ⟨px, py, hx, hy, ?_, ?_⟩
          · rw [spriteBit_cons, hb]
            simp [below px py hb]
          · rw [q1 px py hx hy] at hp
            simpa [below px py hb] using hp
      · rintro (h | ⟨px, py, hx, hy, hb, hp⟩)
        · exact .inl (.inl h)
        · by_cases hpy : py = y
          · subst hpy
            have hf : spriteBit rows x0 (py + 1) px py = false :=
              Bool.eq_false_iff.mpr fun e => below px py e rfl
            rw [spriteBit_cons, hf] at hb
            simp only [Bool.xor_false, Bool.and_eq_true, decide_eq_true_eq] at hb
            exact .inl (.inr ⟨px, hx, hy, hb.1.1.2, hb.1.2, hb.2, hp⟩)
          · refine .inr ⟨px, py, hx, hy, ?_, ?_⟩
            · rw [spriteBit_cons] at hb
              simpa [hpy] using hb
            · rw [q1 px py hx hy]
              simpa [hpy] using hp

/-- Two bytes of the framebuffer that agree in every pixel are the same byte (R73). -/
theorem framebuffer_ext {m n : Memory} (h : ∀ px py, px < Config.fbWidth → py < Config.fbHeight →
    m.pixel px py = n.pixel px py) {a : Nat} (h1 : Config.fbBase ≤ a) (h2 : a < Config.fbBase + Config.fbSize) :
    m.read a = n.read a := by
  simp only [Config.fbBase, Config.fbSize] at h1 h2
  apply BitVec.eq_of_getLsbD_eq
  intro b hb
  have hx : 8 * (a % 8) + (7 - b) < Config.fbWidth := by simp only [Config.fbWidth]; omega
  have hy : (a - Config.fbBase) / 8 < Config.fbHeight := by simp only [Config.fbBase, Config.fbHeight]; omega
  have hp := h _ _ hx hy
  have ha : pixelAddr (8 * (a % 8) + (7 - b)) ((a - Config.fbBase) / 8) = a := by
    simp only [pixelAddr, Config.fbBase]; omega
  have hk : pixelBit (8 * (a % 8) + (7 - b)) = b := by
    simp only [pixelBit]; omega
  simpa only [Memory.pixel, ha, hk] using hp

end Sys2Proof.Machine
end

