-- ==== Sys2Proof/Laws/PerInstr.lean ====
section
/-! SUPPORT. Statements made per instruction. The family Layout: the encoder gives each instruction the bits that
spec/opcode_table.json and the instruction's own rule write for it, most significant first. -/

namespace Sys2Proof.Laws.Layout

/-- The word of `i`, written bit by bit from its row's "encoding" (R92, R95). -/
def Statement : Instr → Prop
  | .cls => encode .cls = 0b0000000011100000#16
  | .ret => encode .ret = 0b0000000011101110#16
  | .sys nnn => encode (.sys nnn) = 0b0000#4 ++ nnn
  | .jp nnn => encode (.jp nnn) = 0b0001#4 ++ nnn
  | .call nnn => encode (.call nnn) = 0b0010#4 ++ nnn
  | .seImm x nn => encode (.seImm x nn) = 0b0011#4 ++ BitVec.ofFin (w := 4) x ++ nn
  | .sneImm x nn => encode (.sneImm x nn) = 0b0100#4 ++ BitVec.ofFin (w := 4) x ++ nn
  | .seReg x y => encode (.seReg x y) = 0b0101#4 ++ BitVec.ofFin (w := 4) x ++ BitVec.ofFin (w := 4) y ++ 0b0000#4
  | .sneReg x y => encode (.sneReg x y) = 0b1001#4 ++ BitVec.ofFin (w := 4) x ++ BitVec.ofFin (w := 4) y ++ 0b0000#4
  | .ldImm x nn => encode (.ldImm x nn) = 0b0110#4 ++ BitVec.ofFin (w := 4) x ++ nn
  | .addImm x nn => encode (.addImm x nn) = 0b0111#4 ++ BitVec.ofFin (w := 4) x ++ nn
  | .ldReg x y => encode (.ldReg x y) = 0b1000#4 ++ BitVec.ofFin (w := 4) x ++ BitVec.ofFin (w := 4) y ++ 0b0000#4
  | .or x y => encode (.or x y) = 0b1000#4 ++ BitVec.ofFin (w := 4) x ++ BitVec.ofFin (w := 4) y ++ 0b0001#4
  | .and x y => encode (.and x y) = 0b1000#4 ++ BitVec.ofFin (w := 4) x ++ BitVec.ofFin (w := 4) y ++ 0b0010#4
  | .xor x y => encode (.xor x y) = 0b1000#4 ++ BitVec.ofFin (w := 4) x ++ BitVec.ofFin (w := 4) y ++ 0b0011#4
  | .addReg x y => encode (.addReg x y) = 0b1000#4 ++ BitVec.ofFin (w := 4) x ++ BitVec.ofFin (w := 4) y ++ 0b0100#4
  | .sub x y => encode (.sub x y) = 0b1000#4 ++ BitVec.ofFin (w := 4) x ++ BitVec.ofFin (w := 4) y ++ 0b0101#4
  | .subn x y => encode (.subn x y) = 0b1000#4 ++ BitVec.ofFin (w := 4) x ++ BitVec.ofFin (w := 4) y ++ 0b0111#4
  | .shr x y => encode (.shr x y) = 0b1000#4 ++ BitVec.ofFin (w := 4) x ++ BitVec.ofFin (w := 4) y ++ 0b0110#4
  | .shl x y => encode (.shl x y) = 0b1000#4 ++ BitVec.ofFin (w := 4) x ++ BitVec.ofFin (w := 4) y ++ 0b1110#4
  | .ldI nnn => encode (.ldI nnn) = 0b1010#4 ++ nnn
  | .jpV0 nnn => encode (.jpV0 nnn) = 0b1011#4 ++ nnn
  | .rnd x nn => encode (.rnd x nn) = 0b1100#4 ++ BitVec.ofFin (w := 4) x ++ nn
  | .drw x y n => encode (.drw x y n) = 0b1101#4 ++ BitVec.ofFin (w := 4) x ++ BitVec.ofFin (w := 4) y ++ BitVec.ofFin (w := 4) n
  | .skp x => encode (.skp x) = 0b1110#4 ++ BitVec.ofFin (w := 4) x ++ 0b10011110#8
  | .sknp x => encode (.sknp x) = 0b1110#4 ++ BitVec.ofFin (w := 4) x ++ 0b10100001#8
  | .ldVxDt x => encode (.ldVxDt x) = 0b1111#4 ++ BitVec.ofFin (w := 4) x ++ 0b00000111#8
  | .ldVxK x => encode (.ldVxK x) = 0b1111#4 ++ BitVec.ofFin (w := 4) x ++ 0b00001010#8
  | .ldDtVx x => encode (.ldDtVx x) = 0b1111#4 ++ BitVec.ofFin (w := 4) x ++ 0b00010101#8
  | .ldStVx x => encode (.ldStVx x) = 0b1111#4 ++ BitVec.ofFin (w := 4) x ++ 0b00011000#8
  | .addI x => encode (.addI x) = 0b1111#4 ++ BitVec.ofFin (w := 4) x ++ 0b00011110#8
  | .ldF x => encode (.ldF x) = 0b1111#4 ++ BitVec.ofFin (w := 4) x ++ 0b00101001#8
  | .ldB x => encode (.ldB x) = 0b1111#4 ++ BitVec.ofFin (w := 4) x ++ 0b00110011#8
  | .ldMemVx x => encode (.ldMemVx x) = 0b1111#4 ++ BitVec.ofFin (w := 4) x ++ 0b01010101#8
  | .ldVxMem x => encode (.ldVxMem x) = 0b1111#4 ++ BitVec.ofFin (w := 4) x ++ 0b01100101#8

theorem cls : Statement .cls := rfl
theorem ret : Statement .ret := rfl
theorem sys (nnn : Addr) : Statement (.sys nnn) := wordGNNN_bits 0b0000#4 nnn
theorem jp (nnn : Addr) : Statement (.jp nnn) := wordGNNN_bits 0b0001#4 nnn
theorem call (nnn : Addr) : Statement (.call nnn) := wordGNNN_bits 0b0010#4 nnn
theorem seImm (x : Reg) (nn : Byte) : Statement (.seImm x nn) := wordGXNN_bits 0b0011#4 x nn
theorem sneImm (x : Reg) (nn : Byte) : Statement (.sneImm x nn) := wordGXNN_bits 0b0100#4 x nn
theorem seReg (x : Reg) (y : Reg) : Statement (.seReg x y) := wordGXYN_bits 0b0101#4 x y 0b0000
theorem sneReg (x : Reg) (y : Reg) : Statement (.sneReg x y) := wordGXYN_bits 0b1001#4 x y 0b0000
theorem ldImm (x : Reg) (nn : Byte) : Statement (.ldImm x nn) := wordGXNN_bits 0b0110#4 x nn
theorem addImm (x : Reg) (nn : Byte) : Statement (.addImm x nn) := wordGXNN_bits 0b0111#4 x nn
theorem ldReg (x : Reg) (y : Reg) : Statement (.ldReg x y) := wordGXYN_bits 0b1000#4 x y 0b0000
theorem or (x : Reg) (y : Reg) : Statement (.or x y) := wordGXYN_bits 0b1000#4 x y 0b0001
theorem and (x : Reg) (y : Reg) : Statement (.and x y) := wordGXYN_bits 0b1000#4 x y 0b0010
theorem xor (x : Reg) (y : Reg) : Statement (.xor x y) := wordGXYN_bits 0b1000#4 x y 0b0011
theorem addReg (x : Reg) (y : Reg) : Statement (.addReg x y) := wordGXYN_bits 0b1000#4 x y 0b0100
theorem sub (x : Reg) (y : Reg) : Statement (.sub x y) := wordGXYN_bits 0b1000#4 x y 0b0101
theorem subn (x : Reg) (y : Reg) : Statement (.subn x y) := wordGXYN_bits 0b1000#4 x y 0b0111
theorem shr (x : Reg) (y : Reg) : Statement (.shr x y) := wordGXYN_bits 0b1000#4 x y 0b0110
theorem shl (x : Reg) (y : Reg) : Statement (.shl x y) := wordGXYN_bits 0b1000#4 x y 0b1110
theorem ldI (nnn : Addr) : Statement (.ldI nnn) := wordGNNN_bits 0b1010#4 nnn
theorem jpV0 (nnn : Addr) : Statement (.jpV0 nnn) := wordGNNN_bits 0b1011#4 nnn
theorem rnd (x : Reg) (nn : Byte) : Statement (.rnd x nn) := wordGXNN_bits 0b1100#4 x nn
theorem drw (x : Reg) (y : Reg) (n : Count) : Statement (.drw x y n) := wordGXYN_bits 0b1101#4 x y n
theorem skp (x : Reg) : Statement (.skp x) := wordGXNN_bits 0b1110#4 x 0b10011110#8
theorem sknp (x : Reg) : Statement (.sknp x) := wordGXNN_bits 0b1110#4 x 0b10100001#8
theorem ldVxDt (x : Reg) : Statement (.ldVxDt x) := wordGXNN_bits 0b1111#4 x 0b00000111#8
theorem ldVxK (x : Reg) : Statement (.ldVxK x) := wordGXNN_bits 0b1111#4 x 0b00001010#8
theorem ldDtVx (x : Reg) : Statement (.ldDtVx x) := wordGXNN_bits 0b1111#4 x 0b00010101#8
theorem ldStVx (x : Reg) : Statement (.ldStVx x) := wordGXNN_bits 0b1111#4 x 0b00011000#8
theorem addI (x : Reg) : Statement (.addI x) := wordGXNN_bits 0b1111#4 x 0b00011110#8
theorem ldF (x : Reg) : Statement (.ldF x) := wordGXNN_bits 0b1111#4 x 0b00101001#8
theorem ldB (x : Reg) : Statement (.ldB x) := wordGXNN_bits 0b1111#4 x 0b00110011#8
theorem ldMemVx (x : Reg) : Statement (.ldMemVx x) := wordGXNN_bits 0b1111#4 x 0b01010101#8
theorem ldVxMem (x : Reg) : Statement (.ldVxMem x) := wordGXNN_bits 0b1111#4 x 0b01100101#8

end Sys2Proof.Laws.Layout
end

