-- ==== Sys2Proof/Tests/Slice0.lean ====
section
/-! SUPPORT. Tests: words written out from spec/30_encoding.md, one-step vectors of spec/95_test_vectors.md (each theorem
names its vector), and for every obligation with hypotheses a witness that meets them all. -/

namespace Sys2Proof.Tests

open Sys2Proof.Machine

/-- The reset state with the listed registers set: the start state of spec/95_test_vectors.md. -/
def start (vs : List (Reg × Byte)) : State := vs.foldl (fun s p => s.setV p.1 p.2) State.reset

/-- `s` with a word placed at PC. -/
def put (w : Word) (s : State) : State := s.withFetchWord 16 w.toNat

/-- The state after one step on a word placed at PC. -/
def after (w : Word) (s : State) : State :=
  match step (put w s) with
  | .next t => t
  | .fault _ => s
  | .refused _ => s

/-- The state after one host operation. -/
def afterHost (op : HostOp) (s : State) : State :=
  match hostStep op s with
  | .next t => t
  | .fault _ => s
  | .refused _ => s

/-! ### WellFormed: its one check refuses the two terms it is there for (R95, R96) -/

theorem test_wellFormed_refuses_sys_0E0 : Instr.wellFormed (.sys 0x0E0) = false := by decide
theorem test_wellFormed_refuses_sys_0EE : Instr.wellFormed (.sys 0x0EE) = false := by decide
theorem test_wellFormed_admits_sys_0E1 : Instr.wellFormed (.sys 0x0E1) = true := by decide

/-! ### Decoding: the spot checks of L2.1, each word from its row of R94 -/

theorem test_decode_control :
    decode 0b0000000011100000 = .ok .cls ∧ decode 0b0000000011101110 = .ok .ret ∧
    decode 0b0000000100100011 = .ok (.sys 0x123) ∧ decode 0b0001101010111100 = .ok (.jp 0xABC) ∧
    decode 0b0010101010111100 = .ok (.call 0xABC) ∧ decode 0b1011101111001101 = .ok (.jpV0 0xBCD) := by decide

theorem test_decode_skips :
    decode 0b0011101001000010 = .ok (.seImm 0xA 0x42) ∧ decode 0b0100101001000010 = .ok (.sneImm 0xA 0x42) ∧
    decode 0b0101101010110000 = .ok (.seReg 0xA 0xB) ∧ decode 0b1001101010110000 = .ok (.sneReg 0xA 0xB) := by decide

theorem test_decode_immediates :
    decode 0b0110101001000010 = .ok (.ldImm 0xA 0x42) ∧ decode 0b0111101001000010 = .ok (.addImm 0xA 0x42) ∧
    decode 0b1010101111001101 = .ok (.ldI 0xBCD) ∧ decode 0b1100101001000010 = .ok (.rnd 0xA 0x42) := by decide

theorem test_decode_alu :
    decode 0b1000101010110000 = .ok (.ldReg 0xA 0xB) ∧ decode 0b1000101010110001 = .ok (.or 0xA 0xB) ∧
    decode 0b1000101010110010 = .ok (.and 0xA 0xB) ∧ decode 0b1000101010110011 = .ok (.xor 0xA 0xB) ∧
    decode 0b1000101010110100 = .ok (.addReg 0xA 0xB) ∧ decode 0b1000101010110101 = .ok (.sub 0xA 0xB) ∧
    decode 0b1000101010110110 = .ok (.shr 0xA 0xB) ∧ decode 0b1000101010110111 = .ok (.subn 0xA 0xB) ∧
    decode 0b1000101010111110 = .ok (.shl 0xA 0xB) := by decide

theorem test_decode_draw_and_keys :
    decode 0b1101101010110101 = .ok (.drw 0xA 0xB 0x5) ∧ decode 0b1110101010011110 = .ok (.skp 0xA) ∧
    decode 0b1110101010100001 = .ok (.sknp 0xA) := by decide

theorem test_decode_misc :
    decode 0b1111101000000111 = .ok (.ldVxDt 0xA) ∧ decode 0b1111101000001010 = .ok (.ldVxK 0xA) ∧
    decode 0b1111101000010101 = .ok (.ldDtVx 0xA) ∧ decode 0b1111101000011000 = .ok (.ldStVx 0xA) ∧
    decode 0b1111101000011110 = .ok (.addI 0xA) ∧ decode 0b1111101000101001 = .ok (.ldF 0xA) ∧
    decode 0b1111101000110011 = .ok (.ldB 0xA) ∧ decode 0b1111101001010101 = .ok (.ldMemVx 0xA) ∧
    decode 0b1111101001100101 = .ok (.ldVxMem 0xA) := by decide

/-- D7 to D12. -/
theorem test_decode_rejects :
    decode 0x5121 = .error (.invalidOpcode 0x5121) ∧ decode 0x912F = .error (.invalidOpcode 0x912F) ∧
    decode 0x8018 = .error (.invalidOpcode 0x8018) ∧ decode 0x801F = .error (.invalidOpcode 0x801F) ∧
    decode 0xE000 = .error (.invalidOpcode 0xE000) ∧ decode 0xF000 = .error (.invalidOpcode 0xF000) := by decide

theorem test_decodeBytes_takes_two : decodeBytes [0x6A, 0x42, 0x99] = .ok (.ldImm 0xA 0x42, [0x99]) := by rfl
theorem test_decodeBytes_truncated : decodeBytes [0x6A] = .error .truncated := by rfl
theorem test_decodeTableWord : decodeTableWord 16 0x8AB5 = some (.sub 0xA 0xB) := by decide

/-! ### The cycle -/

/-- D1: the skip at the end of memory. -/
theorem test_skip_past_memory : (after 0x3000 { State.reset with pc := 0xFFE }).pc = 0x1002 := by decide

/-- D3: a fetch above memory; a record without a word. `step` on a state whose PC no `put` moves. -/
theorem test_fetch_fault :
    (match step { State.reset with pc := 0x1000 } with
      | .next t => (t.halted, t.beep, t.fault)
      | .fault _ => (false, false, none)
      | .refused _ => (false, false, none)) =
    (true, false, some { code := 1, pc := 0x1000, word := none, info := some 0x1000 }) := by decide

/-- D4: an odd PC. -/
theorem test_odd_pc : ((after 0x6042 { State.reset with pc := 0x201 }).getV 0,
    (after 0x6042 { State.reset with pc := 0x201 }).pc) = (0x42, 0x203) := by decide

/-- D7. -/
theorem test_illegal_word : ((after 0x5121 State.reset).halted, (after 0x5121 State.reset).fault) =
    (true, some { code := 5, pc := 0x200, word := some 0x5121, info := none }) := by decide

/-- D13, second cycle: a halted core does nothing. -/
theorem test_halted_stays : step { State.reset with halted := true, dt := 5 } =
    .next { State.reset with halted := true, dt := 5 } := by rfl

/-- D14 and D15: the timer step. -/
theorem test_timer_step : ((after 0x6000 { State.reset with dt := 1, st := 1 }).dt,
    (after 0x6000 { State.reset with dt := 1, st := 1 }).st,
    (after 0x6000 { State.reset with dt := 1, st := 1 }).beep,
    (after 0x6000 { State.reset with beep := true }).beep) = (0, 0, true, false) := by decide

/-! ### Arithmetic and logic: A1 to A27 -/

theorem test_ldImm : ((after 0x6A42 State.reset).getV 0xA, (after 0x6A42 State.reset).pc) = (0x42, 0x202) := by decide
theorem test_addImm : ((after 0x7301 (start [(3, 0xFF), (0xF, 0x55)])).getV 3,
    (after 0x7301 (start [(3, 0xFF), (0xF, 0x55)])).getV 0xF) = (0x00, 0x55) := by decide
theorem test_ldReg : (after 0x8120 (start [(2, 0x9C)])).getV 1 = 0x9C := by decide
theorem test_or : ((after 0x8011 (start [(0, 0xF0), (1, 0x0C), (0xF, 7)])).getV 0,
    (after 0x8011 (start [(0, 0xF0), (1, 0x0C), (0xF, 7)])).getV 0xF) = (0xFC, 7) := by decide
theorem test_and : (after 0x8012 (start [(0, 0xF0), (1, 0x3C)])).getV 0 = 0x30 := by decide
theorem test_xor : (after 0x8013 (start [(0, 0xF0), (1, 0x3C)])).getV 0 = 0xCC := by decide
theorem test_addReg : ((after 0x8014 (start [(0, 0xFF), (1, 1)])).getV 0,
    (after 0x8014 (start [(0, 0xFF), (1, 1)])).getV 0xF) = (0x00, 1) := by decide
theorem test_addReg_into_VF : (after 0x8F14 (start [(0xF, 0xFF), (1, 1)])).getV 0xF = 1 := by decide
theorem test_sub : ((after 0x8015 (start [(0, 5), (1, 0x0A)])).getV 0,
    (after 0x8015 (start [(0, 5), (1, 0x0A)])).getV 0xF) = (0xFB, 0) := by decide
theorem test_sub_equal : ((after 0x8015 (start [(0, 7), (1, 7), (0xF, 9)])).getV 0,
    (after 0x8015 (start [(0, 7), (1, 7), (0xF, 9)])).getV 0xF) = (0, 1) := by decide
theorem test_subn : ((after 0x8017 (start [(0, 0x0A), (1, 5), (0xF, 9)])).getV 0,
    (after 0x8017 (start [(0, 0x0A), (1, 5), (0xF, 9)])).getV 0xF) = (0xFB, 0) := by decide
theorem test_subn_no_borrow : ((after 0x8017 (start [(0, 5), (1, 0x0A)])).getV 0,
    (after 0x8017 (start [(0, 5), (1, 0x0A)])).getV 0xF) = (5, 1) := by decide
theorem test_shr : ((after 0x8126 (start [(1, 5), (2, 0xFF)])).getV 1,
    (after 0x8126 (start [(1, 5), (2, 0xFF)])).getV 0xF) = (2, 1) := by decide
theorem test_shr_VF : (after 0x8F06 (start [(0xF, 3)])).getV 0xF = 0 := by decide
theorem test_shl : ((after 0x820E (start [(2, 0x81)])).getV 2,
    (after 0x820E (start [(2, 0x81)])).getV 0xF) = (2, 0x80) := by decide
theorem test_shl_VF : (after 0x8F0E (start [(0xF, 0x80)])).getV 0xF = 0 := by decide
/-- A25, for every value of the draw. -/
theorem test_rnd : (after 0xC30F State.reset).getV 3 = Config.randIn 0 &&& 0x0F := by rfl

/-! ### Control flow: C1 to C19 -/

theorem test_sys : ((after 0x0123 State.reset).halted, (after 0x0123 State.reset).fault) =
    (true, some { code := 5, pc := 0x200, word := some 0x0123, info := none }) := by decide
theorem test_jp : (after 0x1ABC State.reset).pc = 0xABC := by decide
theorem test_call : ((after 0x2300 { State.reset with sp := 15 }).pc, (after 0x2300 { State.reset with sp := 15 }).sp,
    (after 0x2300 { State.reset with sp := 15 }).stack[15]) = (0x300, 16, 0x202) := by decide
theorem test_call_overflow : ((after 0x2300 { State.reset with sp := 16 }).halted,
    (after 0x2300 { State.reset with sp := 16 }).fault) =
    (true, some { code := 2, pc := 0x200, word := some 0x2300, info := none }) := by decide
/-- C6. -/
def called : State := { State.reset with sp := 1, stack := State.reset.stack.set 0 0x206 }
theorem test_ret : ((after 0x00EE called).pc, (after 0x00EE called).sp, (after 0x00EE called).stack[0]) =
    (0x206, 0, 0x206) := by decide
theorem test_ret_underflow : ((after 0x00EE State.reset).halted, (after 0x00EE State.reset).fault) =
    (true, some { code := 3, pc := 0x200, word := some 0x00EE, info := none }) := by decide
theorem test_seImm : ((after 0x3342 (start [(3, 0x42)])).pc, (after 0x3342 (start [(3, 0x41)])).pc) =
    (0x204, 0x202) := by decide
theorem test_sneImm : ((after 0x4342 (start [(3, 0x41)])).pc, (after 0x4342 (start [(3, 0x42)])).pc) =
    (0x204, 0x202) := by decide
theorem test_seReg : ((after 0x5120 (start [(1, 7), (2, 7)])).pc, (after 0x5120 (start [(1, 7), (2, 8)])).pc) =
    (0x204, 0x202) := by decide
theorem test_sneReg : ((after 0x9120 (start [(1, 7), (2, 8)])).pc, (after 0x9120 (start [(1, 7), (2, 7)])).pc) =
    (0x204, 0x202) := by decide
theorem test_jpV0 : ((after 0xB300 (start [(0, 0x10), (3, 0x77)])).pc, (after 0xBFFF (start [(0, 0xFF)])).pc) =
    (0x310, 0x10FE) := by decide

/-! ### Index register and memory: M1 to M19 -/

theorem test_ldI : (after 0xA123 State.reset).i = 0x123 := by decide
theorem test_addI : ((after 0xF31E { start [(3, 1), (0xF, 0x77)] with i := 0x0FFF }).i,
    (after 0xF31E { start [(3, 1), (0xF, 0x77)] with i := 0x0FFF }).getV 0xF) = (0x1000, 0x77) := by decide
theorem test_addI_wraps : (after 0xF31E { start [(3, 2)] with i := 0xFFFF }).i = 1 := by decide
theorem test_ldF : (after 0xF029 (start [(0, 0x0F)])).i = 0x004B := by decide
theorem test_ldF_fault : ((after 0xF029 (start [(0, 0x10)])).halted, (after 0xF029 (start [(0, 0x10)])).fault) =
    (true, some { code := 4, pc := 0x200, word := some 0xF029, info := some 0x10 }) := by decide
/-- M7. -/
theorem test_ldB : (after 0xF033 { start [(0, 0xFE)] with i := 0x300 }).bytes 0x300 3 = [2, 5, 4] := by decide
/-- M10: a write to the framebuffer is seen. -/
theorem test_ldB_framebuffer : (after 0xF033 { start [(0, 0x80)] with i := 0xF00 }).displayChanged = true := by decide
/-- M12. -/
theorem test_ldMemVx : ((after 0xF355 { start [(0, 1), (1, 2), (2, 3), (3, 4), (4, 5)] with i := 0x300 }).bytes 0x300 5,
    (after 0xF355 { start [(0, 1), (1, 2), (2, 3), (3, 4), (4, 5)] with i := 0x300 }).i) =
    ([1, 2, 3, 4, 0], 0x300) := by decide
/-- M15. -/
theorem test_ldMemVx_fault : (after 0xFF55 { State.reset with i := 0xFF1 }).fault =
    some { code := 1, pc := 0x200, word := some 0xFF55, info := some 0x1000 } := by decide
/-- M18: the first font bytes. -/
theorem test_ldVxMem : (after 0xFF65 State.reset).v.toList =
    [0xF0, 0x90, 0x90, 0x90, 0xF0, 0x20, 0x60, 0x20, 0x20, 0x70, 0xF0, 0x10, 0xF0, 0x80, 0xF0, 0xF0] := by decide
/-- M19. -/
theorem test_ldVxMem_fault : (after 0xF165 { State.reset with i := 0xFFF }).fault =
    some { code := 1, pc := 0x200, word := some 0xF165, info := some 0x1000 } := by decide

/-! ### Graphics: G1 to G15 -/

/-- G1. -/
def lit : State := { State.reset with mem := [(0xEFF, 0x55), (0xF00, 0xFF), (0xFFF, 0x01)] }
theorem test_cls : ((after 0x00E0 lit).mem.read 0xEFF, (after 0x00E0 lit).mem.read 0xF00,
    (after 0x00E0 lit).mem.read 0xFFF, (after 0x00E0 lit).displayChanged) = (0x55, 0, 0, true) := by decide +kernel
/-- G4 on a column that is not a byte boundary (G5): the pixel under the sprite collides. -/
def sprite : State := { start [(0, 4)] with i := 0x300, mem := [(0x300, 0xFF), (0xF00, 0x01)] }
theorem test_drw : ((after 0xD010 sprite).mem.read 0xF00, (after 0xD010 sprite).mem.read 0xF01,
    (after 0xD010 sprite).getV 0xF) = (0x0E, 0xF0, 1) := by decide +kernel
/-- G11: a clipped row is read, and faults. -/
theorem test_drw_fault : (after 0xD011 { start [(1, 0x1F)] with i := 0xFFF }).fault =
    some { code := 1, pc := 0x200, word := some 0xD011, info := some 0x1000 } := by decide

/-! ### Keypad and timers: K1 to K9, T1 to T7 -/

/-- Keys 5 and 9 pressed. -/
def keys : State := { start [(3, 0x77), (5, 9)] with key := (State.reset.key.set 5 true).set 9 true }
theorem test_skp : ((after 0xE59E keys).pc, (after 0xE59E (start [(5, 9)])).pc) = (0x204, 0x202) := by decide
theorem test_skp_fault : ((after 0xE59E (start [(5, 0x10)])).halted, (after 0xE59E (start [(5, 0x10)])).fault) =
    (true, some { code := 6, pc := 0x200, word := some 0xE59E, info := some 0x10 }) := by decide
theorem test_sknp : ((after 0xE5A1 keys).pc, (after 0xE5A1 (start [(5, 9)])).pc) = (0x202, 0x204) := by decide
theorem test_sknp_fault : (after 0xE5A1 (start [(5, 0xFF)])).fault =
    some { code := 6, pc := 0x200, word := some 0xE5A1, info := some 0xFF } := by decide
/-- K8. -/
theorem test_ldVxK : ((after 0xF30A keys).getV 3, (after 0xF30A keys).pc) = (5, 0x202) := by decide
/-- K7. -/
def waiting : State := { start [(3, 0x77)] with dt := 3, st := 2 }
theorem test_ldVxK_waits : ((after 0xF30A waiting).getV 3, (after 0xF30A waiting).pc, (after 0xF30A waiting).dt,
    (after 0xF30A waiting).st, (after 0xF30A waiting).beep) = (0x77, 0x200, 2, 1, true) := by decide
theorem test_ldVxDt : ((after 0xF307 { State.reset with dt := 0x10 }).getV 3,
    (after 0xF307 { State.reset with dt := 0x10 }).dt) = (0x10, 0x0F) := by decide
theorem test_ldDtVx : ((after 0xF015 (start [(0, 5)])).dt, (after 0xF015 { State.reset with dt := 9 }).dt) =
    (4, 0) := by decide
theorem test_ldStVx : ((after 0xF018 (start [(0, 1)])).st, (after 0xF018 (start [(0, 1)])).beep,
    (after 0xF018 { State.reset with st := 5 }).beep) = (0, true, false) := by decide

/-! ### The host: R2 to R6 -/

theorem test_load : (afterHost (.load [0x60, 0x05, 0x61]) State.reset).bytes 0x200 3 = [0x60, 0x05, 0x00] := by decide
theorem test_write2 : (afterHost (.write2 0x300 0x1234) State.reset).bytes 0x300 2 = [0x12, 0x34] := by decide
theorem test_write_framebuffer : ((afterHost (.write 0xF00 0xFF) State.reset).mem.read 0xF00,
    (afterHost (.write 0xF00 0xFF) State.reset).displayChanged) = (0xFF, false) := by decide
theorem test_read_fault : (afterHost (.read 0x1000) State.reset).fault =
    some { code := 1, pc := 0x200, word := none, info := some 0x1000 } := by decide
theorem test_setKey : (afterHost (.setKey 0x15 true) State.reset).key[5] = true := by decide
/-- R54: the outputs after 00E0 on a lit screen. -/
theorem test_outputs : ((after 0x00E0 lit).outputs.displayChanged, (after 0x00E0 lit).outputs.framebuffer) =
    (true, List.replicate 256 0) := by decide +kernel
/-- R343: load a program, then one cycle. -/
theorem test_load_and_run :
    (match hostRun [.reset, .load [0x6A, 0x42], .cycle] { State.reset with halted := true, sp := 3 } with
      | .next t => (t.getV 0xA, t.pc, t.sp)
      | .fault _ => (0, 0, 0)
      | .refused _ => (0, 0, 0)) = (0x42, 0x202, 0) := by decide
theorem test_memory_is_canonical : (after 0xF033 { start [(0, 7)] with i := 0x300 }).mem =
    [(0x200, 0xF0), (0x201, 0x33), (0x302, 7)] := by decide

/-! ### Witnesses: for every obligation with hypotheses, a state and operands that meet them all -/

/-- A running core with the word at PC executes it. -/
theorem executes_put {w : Word} {s : State} {i : Instr} (h : (put w s).halted = false)
    (hp : (put w s).pc.toNat + 1 ≤ 0xFFF)
    (hd : decode (beWord ((put w s).mem.read (put w s).pc.toNat) ((put w s).mem.read ((put w s).pc.toNat + 1))) = .ok i) :
    (put w s).Executes i := ⟨h, hp, hd⟩

/-- Whether one step on a word placed at PC ends without a fault. -/
def runs (w : Word) (s : State) : Bool :=
  match step (put w s) with
  | .next t => !t.halted
  | .fault _ => false
  | .refused _ => false

theorem runs_next {w : Word} {s : State} (h : runs w s = true) : ∃ t, step (put w s) = .next t ∧ t.halted = false := by
  unfold runs at h
  split at h
  · exact ⟨_, ‹_›, by simpa using h⟩
  · cases h
  · cases h

theorem test_witness_DecodeInvertsEncode :
    Instr.wellFormed (.sys 0xFFF) = true ∧ Instr.wellFormed (.drw 0xF 0xF 0xF) = true := by decide

theorem test_witness_EncodeInvertsDecode : decode 0x8AB5 = .ok (.sub 0xA 0xB) := by decide

/-- One word for each group of the statement, and one rejected word for each group with secondary dispatch. -/
theorem test_witness_SecondaryDispatchDecidesExecutable :
    (0x8FFE / 0x1000 = 0x8 ∧ 0x8FFE % 0x10 = 0xE) ∧ (0x8008 / 0x1000 = 0x8 ∧ 0x8008 % 0x10 = 8) ∧
    (0xEFA1 / 0x1000 = 0xE ∧ 0xEFA1 % 0x100 = 0xA1) ∧ (0xE000 / 0x1000 = 0xE ∧ 0xE000 % 0x100 = 0) ∧
    (0xFF65 / 0x1000 = 0xF ∧ 0xFF65 % 0x100 = 0x65) ∧ (0xFFFF / 0x1000 = 0xF ∧ 0xFFFF % 0x100 = 0xFF) ∧
    0x1000 / 0x1000 = 0x1 ∧ 0xDFFF / 0x1000 = 0xD := by decide

theorem test_witness_ZeroFiveNineGroupsDecode :
    (0x00E0 / 0x1000 = 0 ∧ 0x0FFF / 0x1000 = 0) ∧ (0x5FF0 / 0x1000 = 5 ∧ 0x5FF0 % 0x10 = 0) ∧
    (0x5001 / 0x1000 = 5 ∧ 0x5001 % 0x10 = 1) ∧ (0x9FFF / 0x1000 = 9 ∧ 0x9FFF % 0x10 = 0xF) := by decide

/-- PC at the last address a fetch may be from. -/
theorem test_witness_StepRunsTheDecodedInstruction :
    let s := put 0x6A42 { State.reset with pc := 0xFFE }
    s.Executes (.ldImm 0xA 0x42) ∧ s.pc = 0xFFE ∧
    ∃ t, exec (.ldImm 0xA 0x42) { s with displayChanged := false, pc := s.pc + 2 } = .next t :=
  ⟨executes_put (by decide) (by decide) (by decide), by decide, _, rfl⟩

/-- Both clauses of the record's info, at the two addresses where they meet. -/
theorem test_witness_FetchOutsideMemoryFaults :
    (({ State.reset with pc := 0xFFF } : State).halted = false ∧
      0xFFE < ({ State.reset with pc := 0xFFF } : State).pc.toNat) ∧
    (({ State.reset with pc := 0x1000 } : State).halted = false ∧
      0xFFE < ({ State.reset with pc := 0x1000 } : State).pc.toNat) := by decide

theorem test_witness_IllegalWordFaults :
    let s := put 0x5121 State.reset
    s.halted = false ∧ s.pc.toNat + 1 ≤ 0xFFF ∧
    beWord (s.mem.read s.pc.toNat) (s.mem.read (s.pc.toNat + 1)) = 0x5121 ∧
    decode 0x5121 = .error (.invalidOpcode 0x5121) := by decide

theorem test_witness_FaultRecordNamesTheInstruction :
    (put 0x0123 State.reset).Executes (.sys 0x123) ∧
    ∃ t, step (put 0x0123 State.reset) = .next t ∧ t.halted = true :=
  ⟨executes_put (by decide) (by decide) (by decide), _, rfl, rfl⟩

theorem test_witness_HaltedCoreStays : ({ State.reset with halted := true } : State).halted = true := rfl

/-- A jump to itself runs two cycles without a fault. -/
theorem test_witness_FaultIsForGood : SafeRun (1 + 1) (put 0x1200 State.reset) := ⟨_, rfl, rfl⟩

/-- 00E0, DXYN, FX33 whose last byte is the framebuffer's first, FX55 likewise, and an instruction of neither kind. -/
theorem test_witness_DisplayChangedTellsTheCycle :
    ((put 0x00E0 State.reset).Executes .cls ∧
      ∃ t, step (put 0x00E0 State.reset) = .next t ∧ t.halted = false) ∧
    ((put 0xD010 sprite).Executes (.drw 0 1 0) ∧ ∃ t, step (put 0xD010 sprite) = .next t ∧ t.halted = false) ∧
    ((put 0xF033 { State.reset with i := 0xEFE }).Executes (.ldB 0) ∧
      (∃ t, step (put 0xF033 { State.reset with i := 0xEFE }) = .next t ∧ t.halted = false) ∧
      0xF00 ≤ (put 0xF033 { State.reset with i := 0xEFE }).i.toNat + 2) ∧
    ((put 0xF155 { State.reset with i := 0xEFE }).Executes (.ldMemVx 1) ∧
      (∃ t, step (put 0xF155 { State.reset with i := 0xEFE }) = .next t ∧ t.halted = false) ∧
      ¬ 0xF00 ≤ (put 0xF155 { State.reset with i := 0xEFE }).i.toNat + 1) := by
  refine ⟨⟨executes_put (by decide) (by decide) (by decide), runs_next (by decide +kernel)⟩,
    ⟨executes_put (by decide) (by decide) (by decide), runs_next (by decide +kernel)⟩,
    ⟨executes_put (by decide) (by decide) (by decide), runs_next (by decide +kernel), by decide⟩,
    ⟨executes_put (by decide) (by decide) (by decide), runs_next (by decide +kernel), by decide⟩⟩

/-- The invariant holds in a running state with one return address on the stack. -/
theorem called_inv : (put 0x00EE called).Inv :=
  ⟨by decide, by decide, rfl, fun _ h => (nomatch h), fun h => (nomatch h), fun _ => by decide, fun _ => by decide⟩

theorem test_witness_StepKeepsTheInvariant :
    (put 0x00EE called).Inv ∧ ∃ t, step (put 0x00EE called) = .next t := ⟨called_inv, _, rfl⟩

theorem test_witness_HostOperationsKeepTheInvariant :
    (put 0x00EE called).Inv ∧ ∃ t, hostStep (.write2 0xFFE 0x1234) (put 0x00EE called) = .next t :=
  ⟨called_inv, _, rfl⟩

/-- A register that is no destination; VF where the instruction sets no flag. -/
theorem test_witness_RegistersWrittenOnlyAsListed :
    (∃ t, exec (.addReg 1 2) State.reset = .next t ∧ t.halted = false) ∧ destV 2 (.addReg 1 2) = false ∧
    ((2 : Reg) = 0xF → setsFlag (.addReg 1 2) = false) ∧
    (∃ t, exec (.addImm 1 2) State.reset = .next t ∧ t.halted = false) ∧ destV 0xF (.addImm 1 2) = false ∧
    ((0xF : Reg) = 0xF → setsFlag (.addImm 1 2) = false) :=
  ⟨⟨_, rfl, rfl⟩, by decide, by decide, ⟨_, rfl, rfl⟩, by decide, by decide⟩

/-- One instruction that writes none of the parts of the statement. -/
theorem test_witness_EachPartHasOnlyItsWriters :
    (∃ t, exec (.ldImm 1 2) State.reset = .next t ∧ t.halted = false) ∧ writesI (.ldImm 1 2) = false ∧
    writesPc (.ldImm 1 2) = false ∧ writesMem (.ldImm 1 2) = false ∧ (∀ nnn, Instr.ldImm 1 2 ≠ .call nnn) ∧
    Instr.ldImm 1 2 ≠ .ret ∧ (∀ x, Instr.ldImm 1 2 ≠ .ldDtVx x) ∧ (∀ x, Instr.ldImm 1 2 ≠ .ldStVx x) :=
  ⟨⟨_, rfl, rfl⟩, rfl, rfl, rfl, fun _ => nofun, nofun, fun _ => nofun, fun _ => nofun⟩

/-- For every clause of `faultsIn` with a condition, a running state that just meets it and one that just does not. -/
theorem test_witness_InstructionsFaultExactlyAsListed :
    (∃ t, exec .ret State.reset = .next t) ∧ State.reset.halted = false ∧ faultsIn State.reset .ret ∧
    (∃ t, exec .ret called = .next t) ∧ called.halted = false ∧ ¬ faultsIn called .ret :=
  ⟨⟨_, rfl⟩, rfl, rfl, ⟨_, rfl⟩, rfl, Nat.one_ne_zero⟩

theorem test_witness_faultsIn_call :
    (∃ t, exec (.call 0x300) { State.reset with sp := 16 } = .next t) ∧
    faultsIn { State.reset with sp := 16 } (.call 0x300) ∧
    (∃ t, exec (.call 0x300) { State.reset with sp := 15 } = .next t) ∧
    ¬ faultsIn { State.reset with sp := 15 } (.call 0x300) :=
  ⟨⟨_, rfl⟩, Nat.le_refl 16, ⟨_, rfl⟩, Nat.not_succ_le_self 15⟩

theorem test_witness_faultsIn_registers :
    (∃ t, exec (.ldF 5) (start [(5, 16)]) = .next t) ∧ faultsIn (start [(5, 16)]) (.ldF 5) ∧
    (∃ t, exec (.skp 5) (start [(5, 16)]) = .next t) ∧ faultsIn (start [(5, 16)]) (.skp 5) ∧
    (∃ t, exec (.sknp 5) (start [(5, 15)]) = .next t) ∧ ¬ faultsIn (start [(5, 15)]) (.sknp 5) :=
  ⟨⟨_, rfl⟩, (by decide : 16 ≤ ((start [(5, 16)]).getV 5).toNat), ⟨_, rfl⟩,
    (by decide : 16 ≤ ((start [(5, 16)]).getV 5).toNat), ⟨_, rfl⟩,
    (by decide : ¬ 16 ≤ ((start [(5, 15)]).getV 5).toNat)⟩

theorem test_witness_faultsIn_blocks :
    let s : State := { State.reset with i := 0xFFE }
    (∃ t, exec (.ldB 0) s = .next t) ∧ faultsIn s (.ldB 0) ∧
    (∃ t, exec (.ldMemVx 1) s = .next t) ∧ ¬ faultsIn s (.ldMemVx 1) ∧
    (∃ t, exec (.ldVxMem 2) s = .next t) ∧ faultsIn s (.ldVxMem 2) ∧
    (∃ t, exec (.drw 0 1 1) s = .next t) ∧ ¬ faultsIn s (.drw 0 1 1) ∧
    (∃ t, exec (.drw 0 1 2) s = .next t) ∧ faultsIn s (.drw 0 1 2) :=
  ⟨⟨_, rfl⟩, (by decide : 0xFFF < 0xFFE + 2), ⟨_, rfl⟩, (by decide : ¬ 0xFFF < 0xFFE + 1), ⟨_, rfl⟩,
    (by decide : 0xFFF < 0xFFE + 2), ⟨_, rfl⟩, (by decide : ¬ 0xFFF < 0xFFE + 1), ⟨_, rfl⟩,
    (by decide : 0xFFF < 0xFFE + 2)⟩

theorem test_witness_CheckedInstructionsRecordTheirFault :
    State.reset.sp = 0 ∧ ({ State.reset with sp := 16 } : State).sp = 16 ∧
    16 ≤ ((start [(0, 16)]).getV 0).toNat ∧ 16 ≤ ((start [(0, 255)]).getV 0).toNat := by decide

/-- The lowest I that faults, for each block, and both clauses of the first invalid address. -/
theorem test_witness_BlockPastMemoryFaults :
    0xFFF < ({ State.reset with i := 0xFFE } : State).i.toNat + 2 ∧
    0xFFF < ({ State.reset with i := 0xFFF } : State).i.toNat + (1 : Reg).val ∧
    0xFFF < ({ State.reset with i := 0x1000 } : State).i.toNat + (0 : Reg).val ∧
    0xFFF < ({ State.reset with i := 0xFF1 } : State).i.toNat + (0xF : Count).val := by decide

theorem test_witness_flag_clauses : (0 : Reg) ≠ 0xF ∧ (0xF : Reg) = 0xF := by decide

theorem test_witness_CallPushesTheReturnAddress : ({ State.reset with sp := 15 } : State).sp < 16 := by decide

theorem test_witness_ReturnTakesTheYoungestEntry :
    (called.sp = 0 + 1 ∧ 0 < 16) ∧ (({ State.reset with sp := 16 } : State).sp = 15 + 1 ∧ 15 < 16) := by decide

theorem test_witness_ReturnUndoesCall : ({ State.reset with sp := 15 } : State).sp < 16 ∧ 14 < 15 := by decide

theorem test_witness_MemReadIsBoundsChecked : 0xFFF ≤ 0xFFF ∧ ¬ 0x1000 ≤ 0xFFF := by decide

theorem test_witness_MemWriteStoresOneByte : 0xFFF < 0x1000 ∧ 0xFFF ≤ 0xFFF := by decide

theorem test_witness_FontPointerIsFiveTimesVx : ((start [(0, 15)]).getV 0).toNat < 16 := by decide

theorem test_witness_DecimalDigitsAreStored : ({ State.reset with i := 0xFFD } : State).i.toNat + 2 ≤ 0xFFF := by decide

theorem test_witness_RegisterBlocks :
    ({ State.reset with i := 0xFF0 } : State).i.toNat + (0xF : Reg).val ≤ 0xFFF ∧ (0xF : Reg) ≤ 0xF ∧
    ({ State.reset with i := 0xFFF } : State).i.toNat + (0 : Reg).val ≤ 0xFFF ∧ (0 : Reg) < 1 := by decide

theorem test_witness_DrawTogglesTheSpritePixels :
    ({ State.reset with i := 0xFF0 } : State).i.toNat + (0xF : Count).val ≤ 0xFFF := by decide

theorem test_witness_DrawingTwiceErases :
    (0 : Reg) ≠ 0xF ∧ (1 : Reg) ≠ 0xF ∧ ({ State.reset with i := 0xEF0 } : State).i.toNat + (0xF : Count).val < 0xF00 := by
  decide

theorem test_witness_SkipsOnAKey :
    ((start [(5, 15)]).getV 5).toNat < 16 ∧ (keys.getV 5).toNat < 16 ∧ keys.key[9] = true := by decide

/-- Key 5 is the lowest pressed key; and a state with no key pressed that executes FX0A. -/
theorem test_witness_KeyWaitTakesTheLowestKey :
    (keys.key[5] = true ∧ ∀ j : Fin 16, j < 5 → keys.key[j.val] = false) ∧
    (∀ k : Fin 16, (put 0xF30A waiting).key[k.val] = false) ∧ (put 0xF30A waiting).Executes (.ldVxK 3) :=
  ⟨by decide, by decide, executes_put (by decide) (by decide) (by decide)⟩

/-- FX07, FX15, FX18, and an instruction that is none of them. -/
theorem test_witness_TimersCountDownOncePerCycle :
    ((put 0xF307 waiting).Executes (.ldVxDt 3) ∧ ∃ t, step (put 0xF307 waiting) = .next t ∧ t.halted = false) ∧
    ((put 0xF015 waiting).Executes (.ldDtVx 0) ∧ ∃ t, step (put 0xF015 waiting) = .next t ∧ t.halted = false) ∧
    ((put 0xF018 waiting).Executes (.ldStVx 0) ∧ ∃ t, step (put 0xF018 waiting) = .next t ∧ t.halted = false) ∧
    ((put 0x6000 waiting).Executes (.ldImm 0 0) ∧ ∃ t, step (put 0x6000 waiting) = .next t ∧ t.halted = false) ∧
    (∀ x, Instr.ldImm 0 0 ≠ .ldDtVx x) ∧ (∀ x, Instr.ldImm 0 0 ≠ .ldStVx x) := by
  refine ⟨⟨executes_put (by decide) (by decide) (by decide), _, rfl, rfl⟩,
    ⟨executes_put (by decide) (by decide) (by decide), _, rfl, rfl⟩,
    ⟨executes_put (by decide) (by decide) (by decide), _, rfl, rfl⟩,
    ⟨executes_put (by decide) (by decide) (by decide), _, rfl, rfl⟩, fun _ => nofun, fun _ => nofun⟩

/-- The last address of each form that succeeds, the first that faults, and 0xFFF, where only the two-byte write does. -/
theorem test_witness_HostMemoryPortIsBoundsChecked :
    0xFFF ≤ 0xFFF ∧ 0xFFE + 1 ≤ 0xFFF ∧ 0xFFF < 0x1000 ∧ 0xFFF < 0xFFF + 1 := by decide

/-- An odd image that just fits, and the shortest that does not. -/
theorem test_witness_ProgramLoadDropsTheOddByte :
    2 * ((List.replicate 0xE01 (0 : Byte)).length / 2) ≤ 0xE00 ∧
    0xE00 < 2 * ((List.replicate 0xE02 (0 : Byte)).length / 2) := by
  rw [List.length_replicate, List.length_replicate]
  decide

end Sys2Proof.Tests
end

section
/-! PROOFS. The host's ports of spec/10_state.md §11: the key setter. -/

namespace Sys2Proof.Machine

/-- The setter writes a flag that exists, the index being reduced modulo 16, so the flag under that index is the new
value and every other flag the old one (R51). -/
theorem State.getElem_setKey_key (s : State) (k : Nat) (b : Bool) (j : Nat) (h : j < 16) :
    (s.setKey k b).key[j] = if j = k % 16 then b else s.key[j] := by
  simp only [State.setKey_key, Vector.getElem_setIfInBounds h, eq_comm (a := j)]

/-- Settles O55: the next state is `s.setKey k b`, an update of the field `key` alone. -/
theorem setKeyWritesOneFlag : Obligations.SetKeyWritesOneFlag :=
  fun s k b => ⟨s.setKey k b, rfl, s.getElem_setKey_key k b, rfl⟩

end Sys2Proof.Machine
end

section
/-! PROOFS. The checked memory access of spec/10_state.md, rule R63. -/

namespace Sys2Proof.Machine

/-- Settles O40: 0xFFF is the last address below `Config.memSize`, so the bound of R63 separates the read that answers
the byte from the one that answers the fault. -/
theorem memReadIsBoundsChecked : Obligations.MemReadIsBoundsChecked := by
  intro s a
  have inMemory : a < Config.memSize ↔ a ≤ 0xFFF := Nat.lt_succ_iff
  split_ifs with h
  · exact s.memRead_ok (inMemory.mpr h)
  · exact s.memRead_error (Nat.le_of_not_lt (mt inMemory.mp h))

end Sys2Proof.Machine
end

section
/-! PROOFS. Which words are executable (spec/30_encoding.md, rules R97 to R99 and R101): the decoder's dispatch on the
group, and on the function code in the groups 0x8, 0xE and 0xF. -/

namespace Sys2Proof

/-! ### Fields as quotients and remainders of the word (R91) -/

theorem fieldG_toNat (w : Word) : (fieldG w).toNat = w.toNat / 0x1000 := by
  have := w.isLt
  simp only [fieldG, BitVec.extractLsb'_toNat]
  omega

theorem fieldN_val (w : Word) : (fieldN w).val = w.toNat % 0x10 := by
  have hn : (fieldN w).val = (w.extractLsb' 0 4).toNat := rfl
  simp only [hn, BitVec.extractLsb'_toNat, Nat.shiftRight_zero, Nat.reducePow]

theorem fieldNN_toNat (w : Word) : (fieldNN w).toNat = w.toNat % 0x100 := by
  simp only [fieldNN, BitVec.extractLsb'_toNat, Nat.shiftRight_zero, Nat.reducePow]

/-! ### Executable and rejected answers of a decoder -/

/-- The answer is an instruction, and not the legacy call 0NNN, whose meaning is a fault (R96, R97). -/
def Executable (answer : Except Reject Instr) : Prop := ∃ i, answer = .ok i ∧ ∀ nnn, i ≠ .sys nnn

theorem executable_ok {i : Instr} (notSys : ∀ nnn, i ≠ .sys nnn) : Executable (.ok i) := ⟨i, rfl, notSys⟩

/-- The answer for `w` is executable when `w`'s function code is listed, and otherwise the rejection of `w`. -/
def DecidedBy (listed : Prop) [Decidable listed] (w : Word) (answer : Except Reject Instr) : Prop :=
  if listed then Executable answer else answer = .error (.invalidOpcode w)

theorem DecidedBy.ok {listed : Prop} [Decidable listed] {w : Word} {i : Instr} (h : listed)
    (notSys : ∀ nnn, i ≠ .sys nnn) : DecidedBy listed w (.ok i) :=
  (if_pos h).mpr (executable_ok notSys)

theorem DecidedBy.rejected {listed : Prop} [Decidable listed] {w : Word} (h : ¬listed) :
    DecidedBy listed w (.error (.invalidOpcode w)) :=
  (if_neg h).mpr rfl

/-! ### The groups with secondary dispatch -/

/-- Group 0x8, whose function code is the low nibble (R97). -/
theorem decodeAlu_decidedBy (w : Word) :
    DecidedBy ((fieldN w).val ∈ [0, 1, 2, 3, 4, 5, 6, 7, 0xE]) w (decodeAlu w) := by
  unfold decodeAlu
  split
  case h_10 => exact .rejected (by simp_all)
  all_goals exact .ok (by simp [*]) nofun

/-- Group 0xE, whose function code is the low byte (R98). -/
theorem decodeKey_decidedBy (w : Word) : DecidedBy ((fieldNN w).toNat ∈ [0x9E, 0xA1]) w (decodeKey w) := by
  unfold decodeKey
  split
  case h_3 => exact .rejected (by simp_all)
  all_goals exact .ok (by simp [*]) nofun

/-- Group 0xF, whose function code is the low byte (R99). -/
theorem decodeMisc_decidedBy (w : Word) :
    DecidedBy ((fieldNN w).toNat ∈ [0x07, 0x0A, 0x15, 0x18, 0x1E, 0x29, 0x33, 0x55, 0x65]) w (decodeMisc w) := by
  unfold decodeMisc
  split
  case h_10 => exact .rejected (by simp_all)
  all_goals exact .ok (by simp [*]) nofun

/-! ### The dispatch on the group (R94) -/

theorem decode_group8 {w : Word} (hg : (fieldG w).toNat = 0x8) : decode w = decodeAlu w := by
  simp only [decode, hg]

theorem decode_groupE {w : Word} (hg : (fieldG w).toNat = 0xE) : decode w = decodeKey w := by
  simp only [decode, hg]

theorem decode_groupF {w : Word} (hg : (fieldG w).toNat = 0xF) : decode w = decodeMisc w := by
  simp only [decode, hg]

/-- The groups whose words carry operands in every field below the group (R101). -/
theorem decode_executable_of_group {w : Word}
    (hg : (fieldG w).toNat ∈ [0x1, 0x2, 0x3, 0x4, 0x6, 0x7, 0xA, 0xB, 0xC, 0xD]) : Executable (decode w) := by
  simp only [List.mem_cons, List.not_mem_nil, or_false] at hg
  rcases hg with hg | hg | hg | hg | hg | hg | hg | hg | hg | hg <;>
    · simp only [decode, hg]
      exact executable_ok nofun

/-- Settles O4: the group selects the decoder of its words, which decides by their function code. -/
theorem secondaryDispatchDecidesExecutable : Obligations.SecondaryDispatchDecidesExecutable := by
  intro w
  simp only [← fieldG_toNat, ← fieldN_val, ← fieldNN_toNat]
  refine ⟨fun hg => ?_, fun hg => ?_, fun hg => ?_, decode_executable_of_group⟩
  · rw [decode_group8 hg]
    exact decodeAlu_decidedBy w
  · rw [decode_groupE hg]
    exact decodeKey_decidedBy w
  · rw [decode_groupF hg]
    exact decodeMisc_decidedBy w

end Sys2Proof
end

section
/-! PROOFS. DISPLAY_CHANGED over one cycle (spec/40_cycle.md, rule R121): the flag starts at 0, the timer step does not
touch it, and among the meanings that end without a fault only those that write memory set it. -/

namespace Sys2Proof.Machine

/-! ### A cycle that ends without a fault -/

/-- A step that fetches `i` is the meaning of `i`, on the state with the flag cleared and PC advanced, and the end of
the cycle (R120 to R125). -/
theorem State.Executes.step_eq {s : State} {i : Instr} (h : s.Executes i) :
    step s = endCycle (exec i s.beginCycle.advance) := by
  have fetched := s.beginCycle.fetch_ok (Nat.lt_succ_of_le h.fetch)
  rw [step, if_neg (by simp [h.running]), cycle, fetched]
  simp [runWord, h.decode]

/-- A cycle that ends running is a meaning that ended running, followed by the timer step (R126). -/
theorem endCycle_eq_next {r : Result} {t : State} (h : endCycle r = .next t) (ht : t.halted = false) :
    ∃ u, r = .next u ∧ u.halted = false ∧ t = u.timerStep := by
  cases r with
  | next u =>
    cases h
    cases hu : u.halted with
    | false => exact ⟨u, rfl, hu, by simp⟩
    | true => simp [hu] at ht
  | fault | refused => cases h

/-! ### A meaning that ends without a fault -/

/-- A raised fault leaves the core halted (R308). -/
theorem halted_ne_false_of_raise {f : Fault} {i : Instr} {s t : State} (h : raise f i s = .next t) :
    t.halted ≠ false := by
  cases h
  simp

/-- Accesses that ended without raising a fault gave the state that follows. -/
theorem eq_ok_of_orRaise {i : Instr} {s t : State} {r : Except Fault State} (h : orRaise i s r = .next t)
    (ht : t.halted = false) : r = .ok t := by
  cases r with
  | ok u => cases h; rfl
  | error f => exact absurd ht (halted_ne_false_of_raise h)

/-- An instruction that does not write memory leaves DISPLAY_CHANGED alone (R66, R121). -/
theorem exec_displayChanged_of_not_writesMem {i : Instr} {s t : State} (hw : writesMem i = false)
    (h : exec i s = .next t) (ht : t.halted = false) : t.displayChanged = s.displayChanged := by
  cases i
  case cls | drw | ldB | ldMemVx => cases hw
  case sys => exact absurd ht (halted_ne_false_of_raise h)
  case ret | ldF =>
    simp only [exec, execRet, execLdF] at h
    split at h
    · exact absurd ht (halted_ne_false_of_raise h)
    · cases h; rfl
  case call | skp | sknp =>
    simp only [exec, execCall, execSkp, execSknp] at h
    split at h
    · cases h; simp
    · exact absurd ht (halted_ne_false_of_raise h)
  case ldVxK =>
    simp only [exec, execLdVxK] at h
    split at h <;> cases h <;> rfl
  case ldVxMem x =>
    by_cases hb : s.i.toNat + x.val ≤ 0xFFF
    · rw [execLdVxMem_ok x s hb] at h
      cases h; rfl
    · rw [execLdVxMem_fault x s (Nat.lt_of_not_le hb)] at h
      exact absurd ht (halted_ne_false_of_raise h)
  all_goals cases h; simp

/-- 00E0 sets DISPLAY_CHANGED, whatever was on the screen (R241). -/
theorem exec_cls_displayChanged {s t : State} (h : exec .cls s = .next t) : t.displayChanged = true := by
  obtain ⟨u, -, hu⟩ := execCls_spec s
  rw [hu] at h
  cases h; rfl

/-- DXYN sets DISPLAY_CHANGED, whether or not a pixel changed (R243). -/
theorem exec_drw_displayChanged {x y : Reg} {n : Count} {s t : State} (h : exec (.drw x y n) s = .next t)
    (ht : t.halted = false) : t.displayChanged = true := by
  by_cases hb : s.i.toNat + n.val ≤ 0xFFF
  · rw [execDrw_ok x y n s hb] at h
    cases h; rfl
  · rw [execDrw_fault x y n s (Nat.lt_of_not_le hb)] at h
    exact absurd ht (halted_ne_false_of_raise h)

/-- The framebuffer is 0xF00-0xFFF (R72). -/
theorem inFramebuffer_iff {a : Nat} : inFramebuffer a = true ↔ 0xF00 ≤ a ∧ a ≤ 0xFFF := by
  simp only [inFramebuffer, Config.fbBase, Config.fbSize, Bool.and_eq_true, decide_eq_true_eq]
  omega

/-- A block of `n + 1` bytes written while DISPLAY_CHANGED is 0 sets it exactly when one of them went to 0xF00-0xFFF
(R66). -/
theorem writeBlock_displayChanged {s t : State} {a n : Nat} {vs : List Byte} (h : s.writeBlock vs a = .ok t)
    (hl : vs.length = n + 1) (hs : s.displayChanged = false) :
    t.displayChanged = true ↔ ∃ k, k ≤ n ∧ 0xF00 ≤ a + k ∧ a + k ≤ 0xFFF := by
  obtain ⟨wrote, -⟩ := State.writeBlock_inv h
  simp [wrote.changed, hs, hl, inFramebuffer_iff]

/-! ### The cycle -/

/-- Settles O13: an instruction that writes no memory leaves the cleared flag, and each of the four that do is in the
list, the two block stores with their bytes. -/
theorem displayChangedTellsTheCycle : Obligations.DisplayChangedTellsTheCycle := by
  intro s t i hi hstep ht
  rw [hi.step_eq] at hstep
  obtain ⟨u, hexec, hu, rfl⟩ := endCycle_eq_next hstep ht
  rw [State.timerStep_displayChanged]
  have cleared : s.beginCycle.advance.displayChanged = false := rfl
  cases hw : writesMem i with
  | false =>
    have kept := (exec_displayChanged_of_not_writesMem hw hexec hu).trans cleared
    refine iff_of_false (by simp [kept]) ?_
    rintro (rfl | ⟨x, y, n, rfl⟩ | ⟨x, rfl, -⟩ | ⟨x, rfl, -⟩) <;> cases hw
  | true =>
    cases i
    case cls => simp [exec_cls_displayChanged hexec]
    case drw x y n => simp [exec_drw_displayChanged hexec hu]
    case ldB x =>
      have := writeBlock_displayChanged (eq_ok_of_orRaise hexec hu) (bcdDigits_length _) cleared
      simpa [State.dataAddr_zero] using this
    case ldMemVx x =>
      have := writeBlock_displayChanged (eq_ok_of_orRaise hexec hu) (State.regBlock_length _ x) cleared
      simpa [State.dataAddr_zero] using this
    all_goals cases hw

end Sys2Proof.Machine
end

section
/-! PROOFS. The words the encoder builds, decoded again (spec/30_encoding.md, rules R92 to R96). -/

namespace Sys2Proof

/-- The field NNN of a well-formed `sys` keeps its word apart from the words of CLS and RET (R96). -/
theorem decodeGroup0_wordGNNN {nnn : Addr} (h : (Instr.sys nnn).wellFormed = true) :
    decodeGroup0 (wordGNNN 0x0 nnn) = .ok (.sys nnn) := by
  simp only [Instr.wellFormed, Bool.and_eq_true, bne_iff_ne] at h
  obtain ⟨notCls, notRet⟩ := h
  have word_ne (w : Word) (hw : nnn ≠ fieldNNN w) : wordGNNN 0x0 nnn ≠ w := fun e =>
    hw (by rw [← e, fieldNNN_wordGNNN])
  rw [decodeGroup0, if_neg (word_ne 0x00E0 notCls), if_neg (word_ne 0x00EE notRet), fieldNNN_wordGNNN]

/-- The decoder inverts the encoder: the group read from a built word leads to the decoder of the row's group, the
function code read from it to the row, and the operand fields give the operands back (R94, R95). -/
theorem decode_encode {i : Instr} (h : i.wellFormed = true) : decode (encode i) = .ok i := by
  cases i
  case cls | ret => rfl
  case sys => simp [decode, encode, decodeGroup0_wordGNNN h]
  case ldReg | or | and | xor | addReg | sub | subn | shr | shl =>
    rw [encode, decode_group8 (by simp)]
    simp [decodeAlu]
  case skp | sknp =>
    rw [encode, decode_groupE (by simp)]
    simp [decodeKey]
  case ldVxDt | ldVxK | ldDtVx | ldStVx | addI | ldF | ldB | ldMemVx | ldVxMem =>
    rw [encode, decode_groupF (by simp)]
    simp [decodeMisc]
  case seReg | sneReg => simp [decode, encode, lowNibbleOk]
  case jp | call | seImm | sneImm | ldImm | addImm | ldI | jpV0 | rnd | drw => simp [decode, encode]

/-- A word that is the layout of a well-formed instruction decodes to it. -/
theorem decode_of_encode_eq {i : Instr} {w : Word} (layout : encode i = w) (h : i.wellFormed = true) :
    decode w = .ok i := by
  rw [← layout, decode_encode h]

end Sys2Proof
end

section
/-! PROOFS. Arithmetic and logic without a flag (spec/41_arithmetic.md, rules R150 to R152, R154 and R155): the meaning
of 6XNN, 7XNN, 8XY0, 8XY2 and 8XY3 is one write of VX. -/

namespace Sys2Proof.Machine

/-! ### The meanings as one register write -/

theorem exec_ldImm (x : Reg) (nn : Byte) (s : State) : exec (.ldImm x nn) s = .next (s.setV x nn) := rfl

theorem exec_addImm (x : Reg) (nn : Byte) (s : State) :
    exec (.addImm x nn) s = .next (s.setV x (s.getV x + nn)) := rfl

theorem exec_ldReg (x y : Reg) (s : State) : exec (.ldReg x y) s = .next (s.setV x (s.getV y)) := rfl

theorem exec_and (x y : Reg) (s : State) : exec (.and x y) s = .next (s.setV x (s.getV x &&& s.getV y)) := rfl

theorem exec_xor (x y : Reg) (s : State) : exec (.xor x y) s = .next (s.setV x (s.getV x ^^^ s.getV y)) := rfl

/-- A meaning that is one write of VX answers a next state with the value in VX and nothing else changed. -/
theorem exec_of_eq_setV {i : Instr} {s : State} {x : Reg} {b : Byte} (h : exec i s = .next (s.setV x b)) :
    ∃ t, exec i s = .next t ∧ t.getV x = b ∧ OnlyV [x] s t :=
  ⟨s.setV x b, h, s.getV_setV_same x b, onlyV_setV s x b⟩

/-! ### The statements -/

/-- Settles O23: the value written is the immediate. -/
theorem loadImmediatePutsNnInVx : Obligations.LoadImmediatePutsNnInVx := fun x nn =>
  ⟨decode_of_encode_eq (Laws.Layout.ldImm x nn) rfl, fun s => exec_of_eq_setV (exec_ldImm x nn s)⟩

/-- Settles O24: the value written is a sum of bytes, which wraps modulo 256. -/
theorem addImmediateWrapsWithoutFlag : Obligations.AddImmediateWrapsWithoutFlag := by
  intro x nn
  refine ⟨decode_of_encode_eq (Laws.Layout.addImm x nn) rfl, fun s => ?_⟩
  obtain ⟨t, answer, sum, frame⟩ := exec_of_eq_setV (exec_addImm x nn s)
  exact ⟨t, answer, by rw [sum, BitVec.toNat_add], frame⟩

/-- Settles O25: the value written is VY as read before the write. -/
theorem copyPutsVyInVx : Obligations.CopyPutsVyInVx := fun x y =>
  ⟨decode_of_encode_eq (Laws.Layout.ldReg x y) rfl, fun s => exec_of_eq_setV (exec_ldReg x y s)⟩

/-- Settles O26: bit `b` of the value written is the conjunction, or exclusive disjunction, of the bits `b` of the two
operands. -/
theorem andAndXorWorkBitByBit : Obligations.AndAndXorWorkBitByBit := by
  intro x y
  refine ⟨decode_of_encode_eq (Laws.Layout.and x y) rfl, decode_of_encode_eq (Laws.Layout.xor x y) rfl,
    fun s => ⟨?_, ?_⟩⟩
  · obtain ⟨t, answer, value, frame⟩ := exec_of_eq_setV (exec_and x y s)
    exact ⟨t, answer, fun b _ => by rw [value, BitVec.getLsbD_and], frame⟩
  · obtain ⟨t, answer, value, frame⟩ := exec_of_eq_setV (exec_xor x y s)
    exact ⟨t, answer, fun b _ => by rw [value, BitVec.getLsbD_xor], frame⟩

end Sys2Proof.Machine
end

section
/-! PROOFS. Jumps and skips (spec/42_control_flow.md, rules R183, R185 to R187 and R190): the meaning of 1NNN, BNNN,
3XNN and 4XNN is one write of PC, or none. -/

namespace Sys2Proof.Machine

/-! ### The meanings as one update of PC -/

theorem exec_jp (nnn : Addr) (s : State) : exec (.jp nnn) s = .next { s with pc := zextAddr nnn } := rfl

theorem exec_jpV0 (nnn : Addr) (s : State) :
    exec (.jpV0 nnn) s = .next { s with pc := (s.getV V0).setWidth 16 + zextAddr nnn } := rfl

theorem exec_seImm (x : Reg) (nn : Byte) (s : State) :
    exec (.seImm x nn) s = .next (s.skipIf (s.getV x == nn)) := rfl

theorem exec_sneImm (x : Reg) (nn : Byte) (s : State) :
    exec (.sneImm x nn) s = .next (s.skipIf (s.getV x != nn)) := rfl

/-- A meaning that is one write of PC answers a next state with the value in PC and nothing else changed. -/
theorem exec_of_eq_pc {i : Instr} {s : State} {p : Word} (h : exec i s = .next { s with pc := p }) :
    ∃ t, exec i s = .next t ∧ t.pc = p ∧ OnlyPc s t :=
  ⟨{ s with pc := p }, h, rfl, onlyPc_pc s p⟩

/-- A meaning that is a conditional skip adds 2 to PC when the condition holds, and changes nothing else (R185). -/
theorem exec_of_eq_skipIf {i : Instr} {s : State} {c : Bool} (h : exec i s = .next (s.skipIf c)) :
    ∃ t, exec i s = .next t ∧ t.pc = (if c then s.pc + 2 else s.pc) ∧ OnlyPc s t :=
  ⟨s.skipIf c, h, s.skipIf_pc c, onlyPc_skipIf s c⟩

/-! ### The targets as numbers -/

/-- Zero extension to 16 bits keeps the address. -/
@[simp] theorem zextAddr_toNat (nnn : Addr) : (zextAddr nnn).toNat = nnn.toNat :=
  BitVec.toNat_setWidth_of_le (by decide)

/-- A byte plus a 12-bit address is below 2^16, so the 16-bit sum does not wrap (R190). -/
theorem toNat_byte_add_zextAddr (b : Byte) (nnn : Addr) :
    (b.setWidth 16 + zextAddr nnn).toNat = b.toNat + nnn.toNat := by
  have zextByte : (b.setWidth 16).toNat = b.toNat := BitVec.toNat_setWidth_of_le (by decide)
  have hb := b.isLt
  have hn := nnn.isLt
  rw [BitVec.toNat_add, zextByte, zextAddr_toNat]
  exact Nat.mod_eq_of_lt (by omega)

/-! ### The statements -/

/-- Settles O33: the value written is NNN, zero-extended. -/
theorem jumpGoesToNnn : Obligations.JumpGoesToNnn := by
  intro nnn
  refine ⟨decode_of_encode_eq (Laws.Layout.jp nnn) rfl, fun s => ?_⟩
  obtain ⟨t, answer, target, frame⟩ := exec_of_eq_pc (exec_jp nnn s)
  exact ⟨t, answer, by rw [target, zextAddr_toNat], frame⟩

/-- Settles O34: the value written is a sum that does not wrap, of at most 0xFF and 0xFFF. -/
theorem jumpPlusV0AddsV0 : Obligations.JumpPlusV0AddsV0 := by
  intro nnn
  refine ⟨decode_of_encode_eq (Laws.Layout.jpV0 nnn) rfl, fun s => ?_⟩
  obtain ⟨t, answer, target, frame⟩ := exec_of_eq_pc (exec_jpV0 nnn s)
  have sum : t.pc.toNat = (s.getV 0).toNat + nnn.toNat := by rw [target, toNat_byte_add_zextAddr, V0]
  have hv := (s.getV 0).isLt
  have hn := nnn.isLt
  exact ⟨t, answer, sum, by omega, frame⟩

/-- Settles O38: both are conditional skips, 3XNN on `VX == NN` and 4XNN on its negation. -/
theorem skipsOnAnImmediate : Obligations.SkipsOnAnImmediate := by
  intro x nn
  refine ⟨decode_of_encode_eq (Laws.Layout.seImm x nn) rfl, decode_of_encode_eq (Laws.Layout.sneImm x nn) rfl,
    fun s => ⟨?_, ?_⟩⟩
  · obtain ⟨t, answer, target, frame⟩ := exec_of_eq_skipIf (exec_seImm x nn s)
    exact ⟨t, answer, by simpa only [beq_iff_eq] using target, frame⟩
  · obtain ⟨t, answer, target, frame⟩ := exec_of_eq_skipIf (exec_sneImm x nn s)
    exact ⟨t, answer, by simpa only [bne_iff_ne, ite_not] using target, frame⟩

end Sys2Proof.Machine
end

section
/-! PROOFS. The index register (spec/43_memory_ops.md, rules R211 and R212): the meaning of ANNN and FX1E is one write
of I. -/

namespace Sys2Proof.Machine

/-! ### The meanings as one write of I -/

theorem exec_ldI (nnn : Addr) (s : State) : exec (.ldI nnn) s = .next { s with i := zextAddr nnn } := rfl

theorem exec_addI (x : Reg) (s : State) :
    exec (.addI x) s = .next { s with i := s.i + (s.getV x).setWidth 16 } := rfl

/-- A meaning that is one write of I answers a next state with the value in I and nothing else changed. -/
theorem exec_of_eq_i {i : Instr} {s : State} {w : Word} (h : exec i s = .next { s with i := w }) :
    ∃ t, exec i s = .next t ∧ t.i = w ∧ OnlyI s t :=
  ⟨{ s with i := w }, h, rfl, onlyI_i s w⟩

/-- Adding a byte to a word wraps modulo 2^16 and at no smaller bound (R33, R212). -/
theorem toNat_word_add_byte (w : Word) (b : Byte) : (w + b.setWidth 16).toNat = (w.toNat + b.toNat) % 65536 := by
  have zextByte : (b.setWidth 16).toNat = b.toNat := BitVec.toNat_setWidth_of_le (by decide)
  rw [BitVec.toNat_add, zextByte]

/-! ### The statements -/

/-- Settles O42: the value written is NNN, zero-extended. -/
theorem loadIndexPutsNnnInI : Obligations.LoadIndexPutsNnnInI := by
  intro nnn
  refine ⟨decode_of_encode_eq (Laws.Layout.ldI nnn) rfl, fun s => ?_⟩
  obtain ⟨t, answer, index, frame⟩ := exec_of_eq_i (exec_ldI nnn s)
  exact ⟨t, answer, by rw [index, zextAddr_toNat], frame⟩

/-- Settles O43: the value written is the 16-bit sum of I and VX, and no register, VF included, is written. -/
theorem addToIndexWrapsAt16Bits : Obligations.AddToIndexWrapsAt16Bits := by
  intro x
  refine ⟨decode_of_encode_eq (Laws.Layout.addI x) rfl, fun s => ?_⟩
  obtain ⟨t, answer, index, frame⟩ := exec_of_eq_i (exec_addI x s)
  exact ⟨t, answer, by rw [index, toNat_word_add_byte], frame⟩

end Sys2Proof.Machine
end

section
/-! PROOFS. Clearing the screen (spec/44_graphics.md, rule R241): the meaning of 00E0 is one block write of 256 zeros
at 0xF00, and DISPLAY_CHANGED. -/

namespace Sys2Proof.Machine

/-- Setting DISPLAY_CHANGED as well stays inside the frame, which does not speak of it. -/
theorem OnlyVAndMem.set_displayChanged {rs : List Reg} {lo n : Nat} {s t : State} (h : OnlyVAndMem rs lo n s t)
    (b : Bool) : OnlyVAndMem rs lo n s { t with displayChanged := b } := by
  obtain ⟨hv, hi, hpc, ⟨hsp, hstack, hkey, hbeep, hhalted, hfault⟩, htimers, hmem⟩ := h
  exact ⟨hv, hi, hpc, ⟨hsp, hstack, hkey, hbeep, hhalted, hfault⟩, htimers, hmem⟩

/-- Every byte of a block written as `n` copies of `v` reads as `v`. -/
theorem State.Wrote.read_replicate {s t : State} {a n : Nat} {v : Byte} (w : s.Wrote t a (List.replicate n v))
    {b : Nat} (lower : a ≤ b) (upper : b < a + n) : t.mem.read b = v := by
  have inBlock : b - a < n := by omega
  rw [w.read, List.length_replicate, if_pos ⟨lower, upper⟩, List.getD_replicate _ inBlock]

/-! ### The statement -/

/-- Settles O48: the block written is the whole framebuffer, and the frame of a block write is that of the
instruction. -/
theorem clearZeroesTheFramebuffer : Obligations.ClearZeroesTheFramebuffer := by
  refine ⟨decode_of_encode_eq Laws.Layout.cls rfl, fun s => ?_⟩
  obtain ⟨t, wrote, answer⟩ := execCls_spec s
  have frame : OnlyVAndMem [] 0xF00 256 s t := by
    simpa only [List.length_replicate] using wrote.onlyVAndMem
  exact ⟨{ t with displayChanged := true }, answer,
    fun a lower upper => wrote.read_replicate lower (Nat.lt_succ_of_le upper), rfl, frame.set_displayChanged true⟩

end Sys2Proof.Machine
end

section
/-! PROOFS. The key wait (spec/45_input_timers.md, rule R272): the meaning of FX0A is one write of VX when a key is
pressed, and otherwise the rewind of PC, which undoes the advance of the fetch. -/

namespace Sys2Proof.Machine

/-! ### The meaning, with a key pressed and with none -/

theorem exec_ldVxK_of_pressed (x : Reg) {s : State} {k : Fin 16} (pressed : s.key[k.val] = true)
    (lowest : ∀ j : Fin 16, j < k → s.key[j.val] = false) :
    exec (.ldVxK x) s = .next (s.setV x (BitVec.ofNat 8 k.val)) := by
  rw [exec, execLdVxK, s.lowestKey_some k pressed lowest]

theorem exec_ldVxK_of_noKey (x : Reg) {s : State} (noKey : ∀ k : Fin 16, s.key[k.val] = false) :
    exec (.ldVxK x) s = .next s.rewind := by
  rw [exec, execLdVxK, s.lowestKey_none noKey]

/-- The number of a key fits in a byte. -/
theorem toNat_ofNat_key (k : Fin 16) : (BitVec.ofNat 8 k.val).toNat = k.val := by
  rw [BitVec.toNat_ofNat]
  exact Nat.mod_eq_of_lt (by omega)

/-! ### The waiting cycle -/

/-- A meaning that leaves the core running is followed by the timer step (R126). -/
theorem endCycle_of_running {t : State} (running : t.halted = false) : endCycle (.next t) = .next t.timerStep := by
  rw [endCycle, running, if_neg Bool.false_ne_true]

/-- A cycle of FX0A with no key pressed clears DISPLAY_CHANGED, advances PC, takes it back and counts the timers
down (R120 to R126, R272). -/
theorem State.Executes.step_ldVxK_of_noKey {x : Reg} {s : State} (h : s.Executes (.ldVxK x))
    (noKey : ∀ k : Fin 16, s.key[k.val] = false) :
    step s = .next s.beginCycle.advance.rewind.timerStep := by
  have waits : exec (.ldVxK x) s.beginCycle.advance = .next s.beginCycle.advance.rewind :=
    exec_ldVxK_of_noKey x noKey
  rw [h.step_eq, waits]
  exact endCycle_of_running h.running

/-- The rewind undoes the advance (R123, R272). -/
theorem State.rewind_advance_pc (s : State) : s.advance.rewind.pc = s.pc := by
  rw [State.rewind_pc, State.advance_pc, BitVec.add_sub_cancel]

/-! ### The statement -/

/-- Settles O52: the value written is the number of the key, the rewind is one write of PC, and a waiting cycle is the
rewind between the fetch and the timer step. -/
theorem keyWaitTakesTheLowestKey : Obligations.KeyWaitTakesTheLowestKey := by
  intro x
  refine ⟨decode_of_encode_eq (Laws.Layout.ldVxK x) rfl, fun s =>
    ⟨fun k pressed lowest => ?_, fun noKey => ⟨?_, fun h => ?_⟩⟩⟩
  · obtain ⟨t, answer, value, frame⟩ := exec_of_eq_setV (exec_ldVxK_of_pressed x pressed lowest)
    exact ⟨t, answer, by rw [value, toNat_ofNat_key], frame⟩
  · exact exec_of_eq_pc (exec_ldVxK_of_noKey x noKey)
  · exact ⟨_, h.step_ldVxK_of_noKey noKey, s.beginCycle.rewind_advance_pc, fun _ => rfl, fun _ => rfl, rfl, rfl,
      timerDecr_toNat s.dt, timerDecr_toNat s.st⟩

end Sys2Proof.Machine
end

section
/-! PROOFS. The decoder and the encoder are inverse to each other (spec/30_encoding.md, rules R90 to R103): a word that
decodes is put together again from its fields, and the groups 0x0, 0x5 and 0x9 (R96, R100). -/

namespace Sys2Proof

/-! ### A word from its group, its operand fields and its function code -/

theorem wordGNNN_of_fields {w : Word} {g : Nat} (hg : (fieldG w).toNat = g) : wordGNNN g (fieldNNN w) = w := by
  rw [← hg, eq_wordGNNN]

theorem wordGXNN_of_fields {w : Word} {g : Nat} {nn : Byte} (hg : (fieldG w).toNat = g)
    (hn : (fieldNN w).toNat = nn.toNat) : wordGXNN g (fieldX w) nn = w := by
  rw [← hg, ← BitVec.eq_of_toNat_eq hn, eq_wordGXNN]

theorem wordGXYN_of_fields {w : Word} {g : Nat} {n : Count} (hg : (fieldG w).toNat = g)
    (hn : (fieldN w).val = n.val) : wordGXYN g (fieldX w) (fieldY w) n = w := by
  rw [← hg, ← Fin.ext hn, eq_wordGXYN]

theorem fieldNNN_eq_setWidth (w : Word) : fieldNNN w = w.setWidth 12 := by
  apply BitVec.eq_of_toNat_eq
  simp only [fieldNNN, BitVec.extractLsb'_toNat, BitVec.toNat_setWidth, Nat.shiftRight_zero]

/-! ### The decoder's answers, encoded again, group by group -/

/-- `w` is the word of `i`, and `i` has a word of its own (R92, R95). -/
def IsWordOf (w : Word) (i : Instr) : Prop := encode i = w ∧ i.wellFormed = true

/-- The words that R96 leaves to the legacy call keep their NNN apart from those of CLS and RET. -/
theorem isWordOf_of_decodeGroup0 {w : Word} {i : Instr} (hg : (fieldG w).toNat = 0x0) (h : decodeGroup0 w = .ok i) :
    IsWordOf w i := by
  have word := wordGNNN_of_fields hg
  unfold decodeGroup0 at h
  split_ifs at h with notCls notRet <;> cases h
  · exact ⟨notCls.symm, rfl⟩
  · exact ⟨notRet.symm, rfl⟩
  · have nnn_ne (nnn : Addr) (hw : w ≠ wordGNNN 0x0 nnn) : fieldNNN w ≠ nnn := fun e => hw (by rw [← e, word])
    refine ⟨word, ?_⟩
    simp only [Instr.wellFormed, Bool.and_eq_true, bne_iff_ne]
    exact ⟨nnn_ne 0x0E0 notCls, nnn_ne 0x0EE notRet⟩

/-- Group 0x8, whose function code is the low nibble (R97). -/
theorem isWordOf_of_decodeAlu {w : Word} {i : Instr} (hg : (fieldG w).toNat = 0x8) (h : decodeAlu w = .ok i) :
    IsWordOf w i := by
  unfold decodeAlu at h
  split at h <;> cases h
  all_goals
    rename_i hn
    exact ⟨wordGXYN_of_fields hg hn, rfl⟩

/-- Group 0xE, whose function code is the low byte (R98). -/
theorem isWordOf_of_decodeKey {w : Word} {i : Instr} (hg : (fieldG w).toNat = 0xE) (h : decodeKey w = .ok i) :
    IsWordOf w i := by
  unfold decodeKey at h
  split at h <;> cases h
  all_goals
    rename_i hn
    exact ⟨wordGXNN_of_fields hg hn, rfl⟩

/-- Group 0xF, whose function code is the low byte (R99). -/
theorem isWordOf_of_decodeMisc {w : Word} {i : Instr} (hg : (fieldG w).toNat = 0xF) (h : decodeMisc w = .ok i) :
    IsWordOf w i := by
  unfold decodeMisc at h
  split at h <;> cases h
  all_goals
    rename_i hn
    exact ⟨wordGXNN_of_fields hg hn, rfl⟩

/-- The low nibble is accepted in the groups 0x5 and 0x9 only when it is 0 (R100, D14). -/
theorem lowNibbleOk_iff {w : Word} : lowNibbleOk w = true ↔ (fieldN w).val = 0 := by
  simp [lowNibbleOk, Config.strict59]

/-- The encoder inverts the decoder (R94, R95). -/
theorem isWordOf_of_decode {w : Word} {i : Instr} (h : decode w = .ok i) : IsWordOf w i := by
  unfold decode at h
  split at h
  case h_1 hg => exact isWordOf_of_decodeGroup0 hg h
  case h_2 hg | h_3 hg | h_11 hg | h_12 hg => cases h; exact ⟨wordGNNN_of_fields hg, rfl⟩
  case h_4 hg | h_5 hg | h_7 hg | h_8 hg | h_13 hg => cases h; exact ⟨wordGXNN_of_fields hg rfl, rfl⟩
  case h_6 hg | h_10 hg =>
    split_ifs at h with hn
    cases h
    exact ⟨wordGXYN_of_fields hg (lowNibbleOk_iff.mp hn), rfl⟩
  case h_9 hg => exact isWordOf_of_decodeAlu hg h
  case h_14 hg => cases h; exact ⟨wordGXYN_of_fields hg rfl, rfl⟩
  case h_15 hg => exact isWordOf_of_decodeKey hg h
  case h_16 hg => exact isWordOf_of_decodeMisc hg h
  case h_17 => cases h

/-! ### The groups 0x0, 0x5 and 0x9 -/

theorem decode_group0 {w : Word} (hg : (fieldG w).toNat = 0x0) : decode w = decodeGroup0 w := by
  simp only [decode, hg]

theorem decode_group5 {w : Word} (hg : (fieldG w).toNat = 0x5) : decode w =
    if (fieldN w).val = 0 then .ok (.seReg (fieldX w) (fieldY w)) else .error (.invalidOpcode w) := by
  simp only [decode, hg, lowNibbleOk_iff]

theorem decode_group9 {w : Word} (hg : (fieldG w).toNat = 0x9) : decode w =
    if (fieldN w).val = 0 then .ok (.sneReg (fieldX w) (fieldY w)) else .error (.invalidOpcode w) := by
  simp only [decode, hg, lowNibbleOk_iff]

/-! ### The statements -/

/-- Settles O2: it is `decode_encode`, whose cases are the rows of R95. -/
theorem decodeInvertsEncode : Obligations.DecodeInvertsEncode := fun _ => decode_encode

/-- Settles O3: each answer of the decoder keeps all of the word's fields, in its operands or as its function code. -/
theorem encodeInvertsDecode : Obligations.EncodeInvertsDecode := fun _ _ => isWordOf_of_decode

/-- Settles O5: group 0x0 compares the whole word, the groups 0x5 and 0x9 their low nibble. -/
theorem zeroFiveNineGroupsDecode : Obligations.ZeroFiveNineGroupsDecode := by
  intro w
  simp only [← fieldG_toNat, ← fieldN_val]
  refine ⟨fun hg => ?_, fun hg => ?_⟩
  · rw [decode_group0 hg, decodeGroup0, fieldNNN_eq_setWidth]
  · by_cases hn : (fieldN w).val = 0
    · obtain hg | hg := hg
      · exact (if_pos hn).mpr ⟨_, _, by rw [decode_group5 hg, if_pos hn, if_pos hg]⟩
      · exact (if_pos hn).mpr ⟨_, _, by rw [decode_group9 hg, if_pos hn, if_neg (by simp [hg])]⟩
    · rw [if_neg hn]
      obtain hg | hg := hg
      · rw [decode_group5 hg, if_neg hn]
      · rw [decode_group9 hg, if_neg hn]

/-- Settles O1: the decoder evaluated on each of the fourteen words. -/
theorem decodesWordsOfTheSpec : Obligations.DecodesWordsOfTheSpec := by
  unfold Obligations.DecodesWordsOfTheSpec
  decide

end Sys2Proof
end

section
/-! PROOFS. Arithmetic and logic: 8XY1 and CXNN, which write no flag, and the five instructions that write VF as well
(spec/41_arithmetic.md, rules R153 and R156 to R161). -/

namespace Sys2Proof.Machine

/-! ### The meanings as register writes -/

theorem exec_or (x y : Reg) (s : State) : exec (.or x y) s = .next (s.setV x (s.getV x ||| s.getV y)) := rfl

theorem exec_rnd (x : Reg) (nn : Byte) (s : State) :
    exec (.rnd x nn) s = .next ({ s with draws := s.draws + 1 }.setV x (Config.randIn s.draws &&& nn)) := rfl

theorem exec_addReg (x y : Reg) (s : State) : exec (.addReg x y) s =
    .next ((s.setV x (s.getV x + s.getV y)).setV VF (carryFlag (s.getV x) (s.getV y))) := rfl

theorem exec_sub (x y : Reg) (s : State) : exec (.sub x y) s =
    .next ((s.setV x (s.getV x - s.getV y)).setV VF (noBorrowFlag (s.getV x) (s.getV y))) := rfl

theorem exec_subn (x y : Reg) (s : State) : exec (.subn x y) s =
    .next ((s.setV x (s.getV y - s.getV x)).setV VF (noBorrowFlag (s.getV y) (s.getV x))) := rfl

/-- VF written first, and then VX from what VX reads as after it (R158, R160, D7). -/
def State.flagThenShift (s : State) (x : Reg) (flag : Byte) (shift : Byte → Byte) : State :=
  (s.setV VF flag).setV x (shift ((s.setV VF flag).getV x))

theorem exec_shr (x y : Reg) (s : State) :
    exec (.shr x y) s = .next (s.flagThenShift x (shrFlag (s.getV x)) (· >>> 1)) := rfl

theorem exec_shl (x y : Reg) (s : State) :
    exec (.shl x y) s = .next (s.flagThenShift x (shlFlag (s.getV x)) (· <<< 1)) := rfl

/-- A meaning that writes VX and then VF: with X = F the flag is what stays (R156, R157, R159, D7). -/
theorem exec_of_eq_setV_flag {i : Instr} {s : State} {x : Reg} {b flag : Byte}
    (h : exec i s = .next ((s.setV x b).setV VF flag)) :
    ∃ t, exec i s = .next t ∧ (x ≠ 0xF → t.getV x = b) ∧ t.getV 0xF = flag ∧ OnlyV [x, 0xF] s t :=
  ⟨_, h, fun hx => by rw [State.getV_setV_ne (x := VF) _ _ hx, State.getV_setV_same],
    State.getV_setV_same _ VF flag,
    onlyV_setV_setV s x VF b flag⟩

/-- A meaning that writes VF and then shifts VX: with X = F the flag itself is shifted (R158, R160, D7). -/
theorem exec_of_eq_flagThenShift {i : Instr} {s : State} {x : Reg} {flag : Byte} {shift : Byte → Byte}
    (h : exec i s = .next (s.flagThenShift x flag shift)) :
    ∃ t, exec i s = .next t ∧ (x ≠ 0xF → t.getV x = shift (s.getV x) ∧ t.getV 0xF = flag) ∧
      (x = 0xF → t.getV 0xF = shift flag) ∧ OnlyV [x, 0xF] s t := by
  refine ⟨_, h, fun hx => ⟨?_, ?_⟩, ?_, (onlyV_setV_setV s VF x _ _).mono (by simp [VF, and_comm])⟩
  · rw [State.flagThenShift, State.getV_setV_same, State.getV_setV_ne (x := VF) _ _ hx]
  · rw [State.flagThenShift, State.getV_setV_ne _ _ hx.symm]
    exact State.getV_setV_same s VF flag
  · rintro rfl
    rw [State.flagThenShift, State.getV_setV_same]
    exact congrArg shift (State.getV_setV_same s VF flag)

/-! ### The flags and the shifted values -/

theorem flagByte_decide (p : Prop) [Decidable p] : flagByte (decide p) = if p then 1 else 0 := by
  simp only [flagByte, decide_eq_true_eq]

theorem toNat_sub_byte (a b : Byte) : (a - b).toNat = (a.toNat + 256 - b.toNat) % 256 := by
  have := b.isLt
  rw [BitVec.toNat_sub]
  congr 1
  omega

theorem toNat_shr_one (a : Byte) : (a >>> 1).toNat = a.toNat / 2 := by
  rw [BitVec.toNat_ushiftRight, Nat.shiftRight_eq_div_pow, pow_one]

theorem toNat_shl_one (a : Byte) : (a <<< 1).toNat = a.toNat * 2 % 256 := by
  rw [BitVec.toNat_shiftLeft, Nat.shiftLeft_eq, pow_one]

theorem toNat_shrFlag (a : Byte) : (shrFlag a).toNat = a.toNat % 2 := by
  rw [shrFlag, BitVec.toNat_and, show (0x01 : Byte).toNat = 1 from rfl, Nat.and_one_is_mod]

theorem shlFlag_eq (a : Byte) : shlFlag a = if 128 ≤ a.toNat then 0x80 else 0x00 := by
  revert a
  decide

/-- The bit that 8XY6 keeps in VF is lost when it is shifted (D7). -/
theorem shrFlag_shr_one (a : Byte) : shrFlag a >>> 1 = 0 := by
  apply BitVec.eq_of_toNat_eq
  rw [toNat_shr_one, toNat_shrFlag]
  exact Nat.div_eq_of_lt (Nat.mod_lt _ (by decide))

/-- The bit that 8XYE keeps in VF is lost when it is shifted (D7). -/
theorem shlFlag_shl_one (a : Byte) : shlFlag a <<< 1 = 0 := by
  rw [shlFlag_eq]
  split <;> rfl

/-! ### The statements -/

/-- Settles O27: bit `b` of the value written is the disjunction of the bits `b` of the two operands. -/
theorem orWorksBitByBit : Obligations.OrWorksBitByBit := by
  intro x y s
  obtain ⟨t, answer, value, frame⟩ := exec_of_eq_setV (exec_or x y s)
  exact ⟨t, answer, fun b _ => by rw [value, BitVec.getLsbD_or], frame⟩

/-- Settles O28: the sum is written first and the carry last. -/
theorem addRegistersSetsCarry : Obligations.AddRegistersSetsCarry := by
  intro x y s
  obtain ⟨t, answer, sum, carry, frame⟩ := exec_of_eq_setV_flag (exec_addReg x y s)
  exact ⟨t, answer, fun hx => by rw [sum hx, BitVec.toNat_add], by rw [carry, carryFlag, flagByte_decide], frame⟩

/-- Settles O29: the difference is written first and "no borrow" last, for both orders of the operands. -/
theorem subtractionsSetNoBorrow : Obligations.SubtractionsSetNoBorrow := by
  intro x y s
  refine ⟨?_, ?_⟩
  · obtain ⟨t, answer, difference, flag, frame⟩ := exec_of_eq_setV_flag (exec_sub x y s)
    exact ⟨t, answer, fun hx => by rw [difference hx, toNat_sub_byte],
      by rw [flag, noBorrowFlag, flagByte_decide], frame⟩
  · obtain ⟨t, answer, difference, flag, frame⟩ := exec_of_eq_setV_flag (exec_subn x y s)
    exact ⟨t, answer, fun hx => by rw [difference hx, toNat_sub_byte],
      by rw [flag, noBorrowFlag, flagByte_decide], frame⟩

/-- Settles O30: with X = F the flag just written is shifted, which loses its one bit. -/
theorem shiftsPutTheLostBitInVf : Obligations.ShiftsPutTheLostBitInVf := by
  intro x y s
  refine ⟨?_, ?_⟩
  · obtain ⟨t, answer, apart, same, frame⟩ := exec_of_eq_flagThenShift (exec_shr x y s)
    refine ⟨t, answer, fun hx => ?_, fun hx => (same hx).trans (shrFlag_shr_one _), frame⟩
    obtain ⟨value, flag⟩ := apart hx
    exact ⟨by rw [value, toNat_shr_one], by rw [flag, toNat_shrFlag]⟩
  · obtain ⟨t, answer, apart, same, frame⟩ := exec_of_eq_flagThenShift (exec_shl x y s)
    refine ⟨t, answer, fun hx => ?_, fun hx => (same hx).trans (shlFlag_shl_one _), frame⟩
    obtain ⟨value, flag⟩ := apart hx
    exact ⟨by rw [value, toNat_shl_one], by rw [flag, shlFlag_eq]⟩

/-- Settles O31: the value written is the conjunction of the drawn byte and NN, and the count of draws is in no
frame. -/
theorem randomByteIsMasked : Obligations.RandomByteIsMasked := by
  intro x nn s
  refine ⟨_, exec_rnd x nn s, fun b _ => by rw [State.getV_setV_same, BitVec.getLsbD_and], rfl, ?_⟩
  obtain ⟨hv, hi, hpc, ⟨hsp, hstack, hkey, hbeep, hhalted, hfault⟩, htimers, hmem, hdisplay⟩ :=
    onlyV_setV { s with draws := s.draws + 1 } x (Config.randIn s.draws &&& nn)
  exact ⟨hv, hi, hpc, ⟨hsp, hstack, hkey, hbeep, hhalted, hfault⟩, htimers, hmem, hdisplay⟩

end Sys2Proof.Machine
end

section
/-! PROOFS. The stack, the register skips, the checked register operands and the timers' instructions
(spec/42_control_flow.md, spec/43_memory_ops.md rule R213, spec/45_input_timers.md): the meaning of each as one update
of the state, and what a check that fails records. -/

namespace Sys2Proof.Machine

/-! ### The meanings, with their check passed and with it failed -/

theorem exec_sys (nnn : Addr) (s : State) : exec (.sys nnn) s = raise .invalidOpcode (.sys nnn) s := rfl

theorem exec_seReg (x y : Reg) (s : State) : exec (.seReg x y) s = .next (s.skipIf (s.getV x == s.getV y)) := rfl

theorem exec_sneReg (x y : Reg) (s : State) : exec (.sneReg x y) s = .next (s.skipIf (s.getV x != s.getV y)) := rfl

theorem exec_ldVxDt (x : Reg) (s : State) : exec (.ldVxDt x) s = .next (s.setV x s.dt) := rfl

theorem exec_ldDtVx (x : Reg) (s : State) : exec (.ldDtVx x) s = .next { s with dt := s.getV x } := rfl

theorem exec_ldStVx (x : Reg) (s : State) : exec (.ldStVx x) s = .next { s with st := s.getV x } := rfl

theorem exec_ret_ok {s : State} (h : s.sp ≠ 0) : exec .ret s = .next s.popPc := if_neg h

theorem exec_ret_fault {s : State} (h : s.sp = 0) : exec .ret s = raise .stackUnderflow .ret s := if_pos h

theorem exec_call_ok (nnn : Addr) {s : State} (h : s.sp < 16) :
    exec (.call nnn) s = .next { s.push s.pc with pc := zextAddr nnn } := if_pos h

theorem exec_call_fault (nnn : Addr) {s : State} (h : 16 ≤ s.sp) :
    exec (.call nnn) s = raise .stackOverflow (.call nnn) s := if_neg (Nat.not_lt.mpr h)

theorem exec_ldF_ok {x : Reg} {s : State} (h : (s.getV x).toNat < 16) :
    exec (.ldF x) s = .next { s with i := glyphAddr (s.getV x) } := if_neg (Nat.not_le.mpr h)

theorem exec_ldF_fault {x : Reg} {s : State} (h : 16 ≤ (s.getV x).toNat) :
    exec (.ldF x) s = raise (.invalidGlyph (s.getV x)) (.ldF x) s := if_pos h

theorem exec_skp_ok {x : Reg} {s : State} (h : (s.getV x).toNat < 16) :
    exec (.skp x) s = .next (s.skipIf s.key[(s.getV x).toNat]) := dif_pos h

theorem exec_skp_fault {x : Reg} {s : State} (h : 16 ≤ (s.getV x).toNat) :
    exec (.skp x) s = raise (.keyIndexOutOfRange (s.getV x)) (.skp x) s := dif_neg (Nat.not_lt.mpr h)

theorem exec_sknp_ok {x : Reg} {s : State} (h : (s.getV x).toNat < 16) :
    exec (.sknp x) s = .next (s.skipIf (!s.key[(s.getV x).toNat])) := dif_pos h

theorem exec_sknp_fault {x : Reg} {s : State} (h : 16 ≤ (s.getV x).toNat) :
    exec (.sknp x) s = raise (.keyIndexOutOfRange (s.getV x)) (.sknp x) s := dif_neg (Nat.not_lt.mpr h)

/-- A meaning that raises a fault enters it with the address it was fetched from and its own word (R308, D11). -/
theorem faulted_of_exec_eq_raise {i : Instr} {s : State} {f : Fault} (h : exec i s = raise f i s) :
    ∃ t, exec i s = .next t ∧ Faulted f (s.pc - 2) (some (encode i)) t :=
  ⟨_, h, enterFault_faulted f (s.pc - 2) (some (encode i)) s⟩

/-! ### The values -/

theorem encode_sys (nnn : Addr) : encode (.sys nnn) = nnn.setWidth 16 := by
  apply BitVec.eq_of_toNat_eq
  simp [encode, wordGNNN]

theorem glyphAddr_toNat (d : Byte) : (glyphAddr d).toNat = 5 * d.toNat := by
  have := d.isLt
  rw [glyphAddr, BitVec.toNat_ofNat]
  exact Nat.mod_eq_of_lt (show 5 * d.toNat < 65536 by omega)

theorem State.getElem_push_stack (s : State) (w : Word) (k : Nat) (h : k < 16) :
    (s.push w).stack[k] = if k = s.sp then w else s.stack[k] := by
  simp only [State.push_stack, Vector.getElem_setIfInBounds h, eq_comm (a := k)]

theorem State.stackTop_eq {s : State} {k : Nat} (h : k < 16) (hs : s.sp = k + 1) : s.stackTop = s.stack[k] := by
  simp [State.stackTop, hs, h]

/-! ### The statements -/

/-- Settles O21: each check that fails raises its fault. -/
theorem checkedInstructionsRecordTheirFault : Obligations.CheckedInstructionsRecordTheirFault := fun _ =>
  ⟨fun empty => faulted_of_exec_eq_raise (exec_ret_fault empty),
    fun nnn full => faulted_of_exec_eq_raise (exec_call_fault nnn (Nat.le_of_eq full.symm)),
    fun _ tooLarge => ⟨faulted_of_exec_eq_raise (exec_ldF_fault tooLarge),
      faulted_of_exec_eq_raise (exec_skp_fault tooLarge), faulted_of_exec_eq_raise (exec_sknp_fault tooLarge)⟩⟩

/-- Settles O32: the word recorded is NNN, zero-extended. -/
theorem legacyCallEntersInvalidOpcode : Obligations.LegacyCallEntersInvalidOpcode := by
  intro nnn s
  rw [← encode_sys]
  exact faulted_of_exec_eq_raise (exec_sys nnn s)

/-- Settles O35: with room on the stack the call is one push and one write of PC. -/
theorem callPushesTheReturnAddress : Obligations.CallPushesTheReturnAddress := fun nnn s room =>
  ⟨_, exec_call_ok nnn room, rfl, zextAddr_toNat nnn, s.getElem_push_stack s.pc,
    fun _ => rfl, rfl, rfl, rfl, rfl, rfl, ⟨rfl, rfl⟩, fun _ => rfl, rfl⟩

/-- Settles O36: with an entry on the stack the return is one pop into PC. -/
theorem returnTakesTheYoungestEntry : Obligations.ReturnTakesTheYoungestEntry := fun s k h entries =>
  ⟨s.popPc, exec_ret_ok (by omega), by rw [State.popPc_sp, entries, Nat.add_sub_cancel], State.stackTop_eq h entries,
    rfl, fun _ => rfl, rfl, rfl, rfl, rfl, rfl, ⟨rfl, rfl⟩, fun _ => rfl, rfl⟩

/-- Settles O37: the entry the return takes is the one the call pushed. -/
theorem returnUndoesCall : Obligations.ReturnUndoesCall := by
  intro nnn s room
  obtain ⟨t, call, pushed, -, stack, -⟩ := callPushesTheReturnAddress nnn s room
  obtain ⟨u, ret, popped, pc, kept, -⟩ := returnTakesTheYoungestEntry t s.sp room pushed
  refine ⟨t, u, call, ret, ?_, popped, fun k h live => ?_⟩
  · rw [pc, stack s.sp room, if_pos rfl]
  · simp only [kept, stack k h, if_neg (Nat.ne_of_lt live)]

/-- Settles O39: both are conditional skips, 5XY0 on `VX == VY` and 9XY0 on its negation. -/
theorem skipsOnTwoRegisters : Obligations.SkipsOnTwoRegisters := by
  intro x y s
  refine ⟨?_, ?_⟩
  · obtain ⟨t, answer, target, frame⟩ := exec_of_eq_skipIf (exec_seReg x y s)
    exact ⟨t, answer, by simpa only [beq_iff_eq] using target, frame⟩
  · obtain ⟨t, answer, target, frame⟩ := exec_of_eq_skipIf (exec_sneReg x y s)
    exact ⟨t, answer, by simpa only [bne_iff_ne, ite_not] using target, frame⟩

/-- Settles O44: the value written is five times VX, which fits in 16 bits. -/
theorem fontPointerIsFiveTimesVx : Obligations.FontPointerIsFiveTimesVx := by
  intro x s digit
  obtain ⟨t, answer, index, frame⟩ := exec_of_eq_i (exec_ldF_ok digit)
  exact ⟨t, answer, by rw [index, glyphAddr_toNat], frame⟩

/-- Settles O51: with the index in range both are conditional skips, EX9E on the key's flag and EXA1 on its negation. -/
theorem skipsOnAKey : Obligations.SkipsOnAKey := by
  intro x s inRange
  refine ⟨exec_of_eq_skipIf (exec_skp_ok inRange), ?_⟩
  obtain ⟨t, answer, target, frame⟩ := exec_of_eq_skipIf (exec_sknp_ok inRange)
  exact ⟨t, answer, by simpa only [Bool.not_eq_true', ← Bool.not_eq_true, ite_not] using target, frame⟩

/-- Settles O53: FX07 is one write of VX, FX15 and FX18 are one write of a timer. -/
theorem timerInstructionsMoveBytes : Obligations.TimerInstructionsMoveBytes := fun x s =>
  ⟨exec_of_eq_setV (exec_ldVxDt x s),
    ⟨_, exec_ldDtVx x s, rfl, rfl, fun _ => rfl, rfl, rfl, ⟨rfl, rfl, rfl, rfl, rfl, rfl⟩, fun _ => rfl, rfl⟩,
    ⟨_, exec_ldStVx x s, rfl, rfl, fun _ => rfl, rfl, rfl, ⟨rfl, rfl, rfl, rfl, rfl, rfl⟩, fun _ => rfl, rfl⟩⟩

end Sys2Proof.Machine
end

section
/-! PROOFS. The rules about all instructions (spec/10_state.md rules R22 to R43, spec/60_exceptions.md rules R300 to
R307): an instruction raises a fault exactly when `faultsIn` holds, and otherwise it is a chain of updates, each of a
part the instruction is listed as a writer of. -/

namespace Sys2Proof.Machine

/-! ### What an instruction that does not fault may have changed -/

/-- What `i` may have changed between `s` and `t`: a part of the state only when `i` is listed as a writer of it, and
memory never out of its canonical form. -/
structure Effect (i : Instr) (s t : State) : Prop where
  v : ∀ r, destV r i = false → (r = VF → setsFlag i = false) → t.getV r = s.getV r
  index : writesI i = false → t.i = s.i
  pc : writesPc i = false → t.pc = s.pc
  stack : (∀ nnn, i ≠ .call nnn) → i ≠ .ret → t.sp = s.sp ∧ t.stack = s.stack
  dt : (∀ x, i ≠ .ldDtVx x) → t.dt = s.dt
  st : (∀ x, i ≠ .ldStVx x) → t.st = s.st
  key : t.key = s.key
  mem : writesMem i = false → t.mem = s.mem
  wf : s.mem.wf = true → t.mem.wf = true
  beep : t.beep = s.beep
  halted : t.halted = s.halted
  fault : t.fault = s.fault

namespace Effect

variable {i : Instr} {s t u : State}

theorem refl (i : Instr) (s : State) : Effect i s s where
  v _ _ _ := rfl
  index _ := rfl
  pc _ := rfl
  stack _ _ := ⟨rfl, rfl⟩
  dt _ := rfl
  st _ := rfl
  key := rfl
  mem _ := rfl
  wf := id
  beep := rfl
  halted := rfl
  fault := rfl

/-- A write of a destination register. -/
theorem setV (h : Effect i s t) {x : Reg} (hx : destV x i = true) (b : Byte) : Effect i s (t.setV x b) :=
  { h with
    v := fun r hr hf => by
      have other : r ≠ x := fun e => Bool.false_ne_true (hr.symm.trans (e ▸ hx))
      rw [State.getV_setV_ne _ _ other, h.v r hr hf] }

/-- A write of the flag register. -/
theorem setFlag (h : Effect i s t) (hi : setsFlag i = true) (b : Byte) : Effect i s (t.setV VF b) :=
  { h with
    v := fun r hr hf => by
      have other : r ≠ VF := fun e => Bool.false_ne_true ((hf e).symm.trans hi)
      rw [State.getV_setV_ne _ _ other, h.v r hr hf] }

/-- A load of several registers that leaves every one but the destinations. -/
theorem setRegs (h : Effect i s t) {v : Vector Byte 16} (hv : ∀ r : Reg, destV r i = false → v[r.val] = t.getV r) :
    Effect i s { t with v := v } :=
  { h with v := fun r hr hf => (hv r hr).trans (h.v r hr hf) }

theorem setPc (h : Effect i s t) (hi : writesPc i = true) (p : Word) : Effect i s { t with pc := p } :=
  { h with pc := fun hn => absurd (hn.symm.trans hi) Bool.false_ne_true }

theorem skipIf (h : Effect i s t) (hi : writesPc i = true) (c : Bool) : Effect i s (t.skipIf c) := by
  cases c
  · exact h
  · exact h.setPc hi _

theorem setI (h : Effect i s t) (hi : writesI i = true) (w : Word) : Effect i s { t with i := w } :=
  { h with index := fun hn => absurd (hn.symm.trans hi) Bool.false_ne_true }

theorem setStack (h : Effect i s t) (hi : (∃ nnn, i = .call nnn) ∨ i = .ret) (sp : Nat) (stack : Vector Word 16) :
    Effect i s { t with sp := sp, stack := stack } :=
  { h with
    stack := fun notCall notRet => by
      obtain ⟨nnn, hi⟩ | hi := hi
      · exact absurd hi (notCall nnn)
      · exact absurd hi notRet }

theorem setDisplayChanged (h : Effect i s t) (b : Bool) : Effect i s { t with displayChanged := b } := { h with }

theorem setDraws (h : Effect i s t) (n : Nat) : Effect i s { t with draws := n } := { h with }

/-- A write of memory that keeps the canonical form, with its side effect on DISPLAY_CHANGED. -/
theorem setMem (h : Effect i s t) (hi : writesMem i = true)
    (rest : u = { t with mem := u.mem, displayChanged := u.displayChanged }) (wf : t.mem.wf = true → u.mem.wf = true) :
    Effect i s u := by
  rw [rest]
  exact { h with
    mem := fun hn => absurd (hn.symm.trans hi) Bool.false_ne_true
    wf := fun hs => wf (h.wf hs) }

end Effect

/-! ### The two outcomes of an instruction -/

/-- In the cases the spec lists, an instruction raises a fault (R300 to R306). -/
theorem exec_raises {i : Instr} {s : State} (h : faultsIn s i) : ∃ f, exec i s = raise f i s := by
  cases i
  case sys => exact ⟨_, exec_sys _ s⟩
  case ret => exact ⟨_, exec_ret_fault h⟩
  case call => exact ⟨_, exec_call_fault _ h⟩
  case ldF => exact ⟨_, exec_ldF_fault h⟩
  case skp => exact ⟨_, exec_skp_fault h⟩
  case sknp => exact ⟨_, exec_sknp_fault h⟩
  case ldB => exact ⟨_, execLdB_fault _ s h⟩
  case ldMemVx => exact ⟨_, execLdMemVx_fault _ s h⟩
  case ldVxMem => exact ⟨_, execLdVxMem_fault _ s h⟩
  case drw => exact ⟨_, execDrw_fault _ _ _ s h⟩
  all_goals cases h

/-- The key wait writes VX or PC (R272). -/
theorem exec_ldVxK_effect (x : Reg) (s : State) : ∃ t, exec (.ldVxK x) s = .next t ∧ Effect (.ldVxK x) s t := by
  rw [exec, execLdVxK]
  split
  · exact ⟨_, rfl, (Effect.refl (.ldVxK x) s).setV (decide_eq_true rfl) _⟩
  · exact ⟨_, rfl, (Effect.refl (.ldVxK x) s).setPc rfl _⟩

/-- In all other cases an instruction answers a next state that differs from the last in what it is listed as a writer
of (R22 to R43, R61, R307). -/
theorem exec_effect {i : Instr} {s : State} (h : ¬ faultsIn s i) : ∃ t, exec i s = .next t ∧ Effect i s t := by
  have start := Effect.refl i s
  cases i
  case sys => exact absurd trivial h
  case cls =>
    obtain ⟨t, wrote, answer⟩ := execCls_spec s
    exact ⟨_, answer, (start.setMem rfl wrote.rest wrote.wf).setDisplayChanged true⟩
  case ret => exact ⟨_, exec_ret_ok h, (start.setStack (.inr rfl) (s.sp - 1) s.stack).setPc rfl s.stackTop⟩
  case jp => exact ⟨_, exec_jp _ s, start.setPc rfl _⟩
  case jpV0 => exact ⟨_, exec_jpV0 _ s, start.setPc rfl _⟩
  case call nnn =>
    exact ⟨_, exec_call_ok nnn (Nat.lt_of_not_le h),
      (start.setStack (.inl ⟨nnn, rfl⟩) (s.sp + 1) (s.push s.pc).stack).setPc rfl (zextAddr nnn)⟩
  case seImm => exact ⟨_, exec_seImm _ _ s, start.skipIf rfl _⟩
  case sneImm => exact ⟨_, exec_sneImm _ _ s, start.skipIf rfl _⟩
  case seReg => exact ⟨_, exec_seReg _ _ s, start.skipIf rfl _⟩
  case sneReg => exact ⟨_, exec_sneReg _ _ s, start.skipIf rfl _⟩
  case skp => exact ⟨_, exec_skp_ok (Nat.lt_of_not_le h), start.skipIf rfl _⟩
  case sknp => exact ⟨_, exec_sknp_ok (Nat.lt_of_not_le h), start.skipIf rfl _⟩
  case ldImm => exact ⟨_, exec_ldImm _ _ s, start.setV (decide_eq_true rfl) _⟩
  case addImm => exact ⟨_, exec_addImm _ _ s, start.setV (decide_eq_true rfl) _⟩
  case ldReg => exact ⟨_, exec_ldReg _ _ s, start.setV (decide_eq_true rfl) _⟩
  case or => exact ⟨_, exec_or _ _ s, start.setV (decide_eq_true rfl) _⟩
  case and => exact ⟨_, exec_and _ _ s, start.setV (decide_eq_true rfl) _⟩
  case xor => exact ⟨_, exec_xor _ _ s, start.setV (decide_eq_true rfl) _⟩
  case rnd => exact ⟨_, exec_rnd _ _ s, (start.setDraws _).setV (decide_eq_true rfl) _⟩
  case ldVxDt => exact ⟨_, exec_ldVxDt _ s, start.setV (decide_eq_true rfl) _⟩
  case addReg => exact ⟨_, exec_addReg _ _ s, (start.setV (decide_eq_true rfl) _).setFlag rfl _⟩
  case sub => exact ⟨_, exec_sub _ _ s, (start.setV (decide_eq_true rfl) _).setFlag rfl _⟩
  case subn => exact ⟨_, exec_subn _ _ s, (start.setV (decide_eq_true rfl) _).setFlag rfl _⟩
  case shr => exact ⟨_, exec_shr _ _ s, (start.setFlag rfl _).setV (decide_eq_true rfl) _⟩
  case shl => exact ⟨_, exec_shl _ _ s, (start.setFlag rfl _).setV (decide_eq_true rfl) _⟩
  case ldI => exact ⟨_, exec_ldI _ s, start.setI rfl _⟩
  case addI => exact ⟨_, exec_addI _ s, start.setI rfl _⟩
  case ldF => exact ⟨_, exec_ldF_ok (Nat.lt_of_not_le h), start.setI rfl _⟩
  case ldVxK x => exact exec_ldVxK_effect x s
  case ldDtVx x => exact ⟨_, exec_ldDtVx x s, { start with dt := fun other => absurd rfl (other x) }⟩
  case ldStVx x => exact ⟨_, exec_ldStVx x s, { start with st := fun other => absurd rfl (other x) }⟩
  case ldB x =>
    obtain ⟨t, answer, wrote⟩ := execLdB_ok x s (Nat.le_of_not_lt h)
    exact ⟨t, answer, start.setMem rfl wrote.rest wrote.wf⟩
  case ldMemVx x =>
    obtain ⟨t, answer, wrote⟩ := execLdMemVx_ok x s (Nat.le_of_not_lt h)
    exact ⟨t, answer, start.setMem rfl wrote.rest wrote.wf⟩
  case ldVxMem x =>
    exact ⟨_, execLdVxMem_ok x s (Nat.le_of_not_lt h), start.setRegs fun _ hr =>
      State.setRegBlock_bytes_gt s s.i.toNat (Nat.lt_of_not_le (of_decide_eq_false hr))⟩
  case drw x y n =>
    have drew := drawn_drew x y n s
    exact ⟨_, execDrw_ok x y n s (Nat.le_of_not_lt h),
      ((start.setMem rfl drew.rest drew.wf).setFlag rfl _).setDisplayChanged true⟩

/-- Whatever the state, an instruction answers a next state (R308). -/
theorem exec_next (i : Instr) (s : State) : ∃ t, exec i s = .next t := by
  by_cases h : faultsIn s i
  · obtain ⟨f, raised⟩ := exec_raises h
    exact ⟨_, raised⟩
  · obtain ⟨t, answer, -⟩ := exec_effect h
    exact ⟨t, answer⟩

/-- An instruction that ends running met no fault. -/
theorem not_faultsIn_of_exec {i : Instr} {s t : State} (h : exec i s = .next t) (ht : t.halted = false) :
    ¬ faultsIn s i := by
  intro faults
  obtain ⟨f, raised⟩ := exec_raises faults
  exact halted_ne_false_of_raise (raised ▸ h) ht

/-- An instruction that ends running has changed only what it is listed as a writer of. -/
theorem effect_of_exec {i : Instr} {s t : State} (h : exec i s = .next t) (ht : t.halted = false) : Effect i s t := by
  obtain ⟨u, answer, effect⟩ := exec_effect (not_faultsIn_of_exec h ht)
  cases answer.symm.trans h
  exact effect

/-! ### The statements -/

/-- Settles O18: it is the part `v` of the effect. -/
theorem registersWrittenOnlyAsListed : Obligations.RegistersWrittenOnlyAsListed := fun _ _ _ r h ht =>
  (effect_of_exec h ht).v r

/-- Settles O19: these are the other parts of the effect. -/
theorem eachPartHasOnlyItsWriters : Obligations.EachPartHasOnlyItsWriters := by
  intro i s t h ht
  have effect := effect_of_exec h ht
  exact ⟨effect.index, effect.pc, effect.stack, effect.dt, effect.st, fun hw a => by rw [effect.mem hw], effect.key⟩

/-- Settles O20: in the listed cases the fault raised halts the core, and in all others HALTED keeps its value. -/
theorem instructionsFaultExactlyAsListed : Obligations.InstructionsFaultExactlyAsListed := by
  intro i s t h running
  refine ⟨fun halted => ?_, fun faults => ?_⟩
  · by_contra noFault
    obtain ⟨u, answer, effect⟩ := exec_effect noFault
    cases answer.symm.trans h
    exact Bool.false_ne_true (running.symm.trans (effect.halted.symm.trans halted))
  · exact Bool.eq_true_of_not_eq_false fun ht => not_faultsIn_of_exec h ht faults

end Sys2Proof.Machine
end

section
/-! PROOFS. The cycle (spec/40_cycle.md rules R120 to R129, spec/60_exceptions.md rules R305 to R312): what one step
does, said once for each way a cycle can go, and from it the fault record, the halted core and the timers. -/

namespace Sys2Proof.Machine

/-! ### The four ways of a cycle -/

/-- A halted core does nothing (R311). -/
theorem step_of_halted {s : State} (h : s.halted = true) : step s = .next s := if_pos h

theorem step_of_running {s : State} (h : s.halted = false) : step s = cycle s := if_neg (by simp [h])

/-- The fetch faults at the first invalid address (R122). -/
theorem step_of_fetch_fault {s : State} (h : s.halted = false) (hp : Config.memSize ≤ s.pc.toNat + 1) :
    step s = .next (enterFault (.memOutOfBounds (max s.pc.toNat Config.memSize)) s.pc none s.beginCycle) := by
  rw [step_of_running h, cycle, s.beginCycle.fetch_error hp]
  rfl

/-- The two bytes at PC, the word a fetch gives (R67). -/
def State.wordAtPc (s : State) : Word := beWord (s.mem.read s.pc.toNat) (s.mem.read (s.pc.toNat + 1))

/-- The PC a meaning sees, less 2, is the address of the fetch (R28, R123). -/
theorem State.advance_pc_sub (s : State) : s.advance.pc - 2 = s.pc := s.rewind_advance_pc

/-- The fetched word is rejected (R102, R305). -/
theorem step_of_rejected {s : State} {r : Reject} (h : s.halted = false) (hp : s.pc.toNat + 1 < Config.memSize)
    (hd : decode s.wordAtPc = .error r) :
    step s = .next (enterFault .invalidOpcode s.pc (some s.wordAtPc) s.beginCycle.advance) := by
  have fetched : s.beginCycle.fetch = .ok s.wordAtPc := s.beginCycle.fetch_ok hp
  rw [step_of_running h, cycle, fetched]
  simp only [runWord, hd]
  rw [s.beginCycle.advance_pc_sub, State.beginCycle_pc]

/-- A step does nothing, enters a fault before it executes an instruction, or executes one. -/
theorem step_cases (s : State) :
    (s.halted = true ∧ step s = .next s) ∨ (∃ f pc w u, step s = .next (enterFault f pc w u)) ∨
      ∃ i, s.Executes i := by
  cases hs : s.halted with
  | true => exact .inl ⟨rfl, step_of_halted hs⟩
  | false =>
    by_cases hp : s.pc.toNat + 1 < Config.memSize
    · cases hd : decode s.wordAtPc with
      | error r => exact .inr (.inl ⟨_, _, _, _, step_of_rejected hs hp hd⟩)
      | ok i => exact .inr (.inr ⟨i, hs, Nat.le_of_lt_succ hp, hd⟩)
    · exact .inr (.inl ⟨_, _, _, _, step_of_fetch_fault hs (Nat.le_of_not_lt hp)⟩)

/-! ### A cycle that executes an instruction -/

/-- The instruction, and then the timer step unless it entered a fault (R126). -/
theorem State.Executes.step_of_exec {s t : State} {i : Instr} (h : s.Executes i)
    (he : exec i s.beginCycle.advance = .next t) : step s = .next (if t.halted then t else t.timerStep) := by
  rw [h.step_eq, he, endCycle]

/-- A cycle that executes an instruction ends with the fault it raised, or with its effect and the timer step. -/
theorem State.Executes.cases {s t : State} {i : Instr} (h : s.Executes i) (hstep : step s = .next t) :
    (∃ f, t = enterFault f s.pc (some (encode i)) s.beginCycle.advance) ∨
      ∃ u, exec i s.beginCycle.advance = .next u ∧ u.halted = false ∧ t = u.timerStep := by
  obtain ⟨u, answer⟩ := exec_next i s.beginCycle.advance
  rw [h.step_of_exec answer] at hstep
  cases hstep
  cases hu : u.halted with
  | false => exact .inr ⟨u, answer, hu, if_neg Bool.false_ne_true⟩
  | true =>
    obtain ⟨f, raised⟩ := exec_raised answer h.running hu
    rw [s.beginCycle.advance_pc_sub] at raised
    exact .inl ⟨f, raised⟩

/-- The word an executed instruction was fetched as is its encoding. -/
theorem State.Executes.encode_eq {s : State} {i : Instr} (h : s.Executes i) : encode i = s.wordAtPc := by
  obtain ⟨word, -⟩ := isWordOf_of_decode h.decode
  exact word

/-! ### Runs of several cycles -/

/-- A run of one cycle more goes on from where the first cycle ended. -/
theorem safeRun_succ {s t : State} (h : step s = .next t) (n : Nat) : SafeRun (n + 1) s ↔ SafeRun n t := by
  simp only [SafeRun, cycles, h]

/-- Settles O11: by induction on the number of requests. -/
theorem haltedCoreStays : Obligations.HaltedCoreStays := by
  intro n s halted
  induction n with
  | zero => rfl
  | succ n ih => simp only [cycles, step_of_halted halted, ih]

/-- Settles O7: a fault of an instruction is a next state, and every way of a cycle ends in one. -/
theorem everyStepAnswersANextState : Obligations.EveryStepAnswersANextState := by
  refine ⟨exec_next, fun s => ?_⟩
  obtain ⟨-, same⟩ | ⟨_, _, _, _, faulted⟩ | ⟨i, h⟩ := step_cases s
  · exact ⟨s, same⟩
  · exact ⟨_, faulted⟩
  · obtain ⟨t, answer⟩ := exec_next i s.beginCycle.advance
    exact ⟨_, h.step_of_exec answer⟩

/-- Settles O12: by induction on the length of the first part; a run that begins halted ends halted. -/
theorem faultIsForGood : Obligations.FaultIsForGood := by
  intro n m
  induction n with
  | zero =>
    rintro s ⟨t, run, running⟩
    cases hs : s.halted with
    | false => exact ⟨s, rfl, hs⟩
    | true =>
      cases (haltedCoreStays _ s hs).symm.trans run
      exact absurd (hs.symm.trans running) Bool.false_ne_true.symm
  | succ n ih =>
    intro s safe
    obtain ⟨t, hstep⟩ := everyStepAnswersANextState.2 s
    rw [Nat.succ_add, safeRun_succ hstep] at safe
    exact (safeRun_succ hstep n).mpr (ih t safe)

/-! ### The statements about one cycle -/

/-- Settles O6: the state that the meaning is given is the one with DISPLAY_CHANGED cleared and PC advanced. -/
theorem stepRunsTheDecodedInstruction : Obligations.StepRunsTheDecodedInstruction := fun _ _ h _ answer =>
  h.step_of_exec answer

/-- Settles O8: of the two bytes, the one at PC is the first outside memory unless PC is 0xFFF. -/
theorem fetchOutsideMemoryFaults : Obligations.FetchOutsideMemoryFaults := by
  intro s running outside
  have firstInvalidByte : max s.pc.toNat Config.memSize = if s.pc.toNat = 0xFFF then 0x1000 else s.pc.toNat := by
    show max s.pc.toNat 4096 = _
    split <;> omega
  rw [← firstInvalidByte]
  exact ⟨_, step_of_fetch_fault running (Nat.succ_le_succ outside), enterFault_faulted ..⟩

/-- Settles O9: the rejected word is in the record. -/
theorem illegalWordFaults : Obligations.IllegalWordFaults := by
  rintro s w running inMemory rfl rejected
  exact ⟨_, step_of_rejected running (Nat.lt_succ_of_le inMemory) rejected, enterFault_faulted ..⟩

/-- Settles O10: a fault is raised with the instruction's encoding, which is the word that was fetched. -/
theorem faultRecordNamesTheInstruction : Obligations.FaultRecordNamesTheInstruction := by
  intro s t i h hstep halted
  obtain ⟨f, rfl⟩ | ⟨u, -, running, rfl⟩ := h.cases hstep
  · exact ⟨rfl, _, rfl, rfl, congrArg some h.encode_eq⟩
  · exact absurd (running.symm.trans halted) Bool.false_ne_true

/-- Settles O54: the timer step runs on what the instruction left, which is DT and ST as they were but for FX15 and
FX18. -/
theorem timersCountDownOncePerCycle : Obligations.TimersCountDownOncePerCycle := by
  intro s t i h hstep running
  obtain ⟨f, rfl⟩ | ⟨u, answer, ends, rfl⟩ := h.cases hstep
  · exact absurd running.symm Bool.false_ne_true
  have effect := effect_of_exec answer ends
  simp only [State.timerStep_dt, State.timerStep_st, State.timerStep_beep, State.getV_timerStep, timerDecr_toNat]
  refine ⟨?_, ?_, ?_, fun other => ?_, fun other => ?_⟩
  · rintro x rfl
    cases answer
    exact State.getV_setV_same _ x s.dt
  · rintro x rfl
    cases answer
    rfl
  · rintro x rfl
    cases answer
    exact ⟨rfl, rfl⟩
  · rw [effect.dt other, State.advance_dt, State.beginCycle_dt]
  · rw [effect.st other, State.advance_st, State.beginCycle_st]
    exact ⟨rfl, rfl⟩

end Sys2Proof.Machine
end

section
/-! PROOFS. The invariant (spec/10_state.md rules R31, R36, R47 and R48): it holds at reset, a fault entry establishes
it from any state, and a step that executes an instruction keeps it. -/

namespace Sys2Proof.Machine

/-! ### The reset state and a fault entry -/

/-- Past the font a reset memory holds zeros (R57). -/
theorem background_eq_zero {a : Nat} (h : 0x050 ≤ a) : background a = 0 := List.getD_eq_default _ _ h

/-- Settles O14: the registers and the font are literals, and past the font the list of its bytes has ended. -/
theorem resetStateIsAsSpecified : Obligations.ResetStateIsAsSpecified :=
  ⟨by decide, rfl, rfl, rfl, by decide, rfl, rfl, by decide, rfl, rfl, rfl, rfl, rfl, rfl, rfl, rfl,
    fun _ lower _ => background_eq_zero lower⟩

/-- The reset values meet the invariant, whatever the model's draw counter is. -/
theorem reset_inv (n : Nat) : State.Inv { State.reset with draws := n } where
  mem := Memory.wf_reset
  sp := Nat.zero_le 16
  faultIff := rfl
  code _ h := nomatch h
  silent h := nomatch h
  pc _ := show Config.entry.toNat ≤ 0x10FE by decide
  stack _ k _ h := absurd h (Nat.not_lt_zero k)

/-- Settles O15: it is the case of the counter's reset value. -/
theorem resetMeetsTheInvariant : Obligations.ResetMeetsTheInvariant := reset_inv 0

theorem Fault.code_mem_range (f : Fault) : 1 ≤ f.code ∧ f.code ≤ 6 := by
  cases f <;> simp [Fault.code]

/-- A fault entry establishes the invariant: what it loses it loses inside its range (R308, R309). -/
theorem enterFault_inv (f : Fault) (pc : Word) (w : Option Word) (s : State) : (enterFault f pc w s).Inv where
  mem := Memory.wf_ofBytes _
  sp := enterFault_sp_le f pc w s
  faultIff := rfl
  code r h := by
    cases h
    exact f.code_mem_range
  silent _ := rfl
  pc h := nomatch h
  stack h := nomatch h

/-! ### PC and the live return addresses through an instruction (R31) -/

/-- Every live stack entry is at most 0x1000, the address after the last instruction that can be fetched. -/
def State.LiveBounded (s : State) : Prop := ∀ k, (h : k < 16) → k < s.sp → (s.stack[k]).toNat ≤ 0x1000

theorem State.LiveBounded.congr {s t : State} (h : s.LiveBounded) (hsp : t.sp = s.sp) (hstack : t.stack = s.stack) :
    t.LiveBounded := by
  intro k hk live
  simp only [hstack]
  exact h k hk (hsp ▸ live)

theorem State.LiveBounded.push {s : State} (h : s.LiveBounded) {w : Word} (hw : w.toNat ≤ 0x1000) :
    (s.push w).LiveBounded := by
  intro k hk live
  rw [s.getElem_push_stack w k hk]
  split_ifs with top
  · exact hw
  · exact h k hk (Nat.lt_of_le_of_ne (Nat.le_of_lt_succ live) top)

theorem State.LiveBounded.popPc {s : State} (h : s.LiveBounded) : s.popPc.LiveBounded := fun k hk live =>
  h k hk (Nat.lt_of_lt_of_le live (Nat.sub_le _ 1))

theorem State.LiveBounded.stackTop_le {s : State} (h : s.LiveBounded) (hsp : s.sp ≤ 16) (hne : s.sp ≠ 0) :
    s.stackTop.toNat ≤ 0x1000 := by
  obtain ⟨k, hk⟩ := Nat.exists_eq_succ_of_ne_zero hne
  rw [State.stackTop_eq (show k < 16 by omega) hk]
  exact h k _ (by omega)

theorem zextAddr_le (nnn : Addr) : (zextAddr nnn).toNat ≤ 0xFFF := by
  rw [zextAddr_toNat]
  exact Nat.le_of_lt_succ nnn.isLt

theorem State.skipIf_pc_le {s : State} (c : Bool) (h : s.pc.toNat ≤ 0x1000) : (s.skipIf c).pc.toNat ≤ 0x10FE := by
  cases c
  · exact Nat.le_trans h (by decide)
  · show (s.pc + 2).toNat ≤ 0x10FE
    bv_omega

section
variable {i : Instr} {s t : State} (answer : exec i s = .next t) (running : t.halted = false)
  (pcUpper : s.pc.toNat ≤ 0x1000) (live : s.LiveBounded) (spRange : s.sp ≤ 16)
include answer running pcUpper live spRange

/-- Only a call and a return touch the stack: the first pushes PC and the second takes an entry. -/
theorem exec_keeps_stack : t.sp ≤ 16 ∧ t.LiveBounded := by
  have noFault := not_faultsIn_of_exec answer running
  cases i
  case call nnn =>
    have room : s.sp < 16 := Nat.lt_of_not_le noFault
    cases (exec_call_ok nnn room).symm.trans answer
    exact ⟨room, (live.push pcUpper).congr rfl rfl⟩
  case ret =>
    cases (exec_ret_ok noFault).symm.trans answer
    exact ⟨Nat.le_trans (Nat.sub_le _ 1) spRange, live.popPc⟩
  all_goals
    obtain ⟨sameSp, sameStack⟩ := (effect_of_exec answer running).stack nofun nofun
    exact ⟨sameSp ▸ spRange, live.congr sameSp sameStack⟩

/-- The targets of the instructions that write PC: BNNN reaches furthest, to 0xFF + 0xFFF. -/
theorem exec_pc_le (pcLower : 2 ≤ s.pc.toNat) : t.pc.toNat ≤ 0x10FE := by
  have noFault := not_faultsIn_of_exec answer running
  cases writes : writesPc i with
  | false =>
    rw [(effect_of_exec answer running).pc writes]
    omega
  | true =>
    cases i
    case jp nnn =>
      cases answer
      exact Nat.le_trans (zextAddr_le nnn) (by decide)
    case jpV0 nnn =>
      cases answer
      show ((s.getV V0).setWidth 16 + zextAddr nnn).toNat ≤ 0x10FE
      have hv := (s.getV V0).isLt
      have hn := nnn.isLt
      rw [toNat_byte_add_zextAddr]
      omega
    case call nnn =>
      cases (exec_call_ok nnn (Nat.lt_of_not_le noFault)).symm.trans answer
      exact Nat.le_trans (zextAddr_le nnn) (by decide)
    case ret =>
      cases (exec_ret_ok noFault).symm.trans answer
      exact Nat.le_trans (live.stackTop_le spRange noFault) (by decide)
    case seImm | sneImm | seReg | sneReg =>
      cases answer
      exact State.skipIf_pc_le _ pcUpper
    case skp =>
      cases (exec_skp_ok (Nat.lt_of_not_le noFault)).symm.trans answer
      exact State.skipIf_pc_le _ pcUpper
    case sknp =>
      cases (exec_sknp_ok (Nat.lt_of_not_le noFault)).symm.trans answer
      exact State.skipIf_pc_le _ pcUpper
    case ldVxK =>
      rw [exec, execLdVxK] at answer
      split at answer <;> cases answer
      · exact Nat.le_trans pcUpper (by decide)
      · show (s.pc - 2).toNat ≤ 0x10FE
        bv_omega
    all_goals cases writes

end

/-! ### The statement -/

/-- Settles O16: a halted core stays, a fault entry establishes the invariant, and an instruction begins at a PC between
2 and 0x1000, the fetch having succeeded. -/
theorem stepKeepsTheInvariant : Obligations.StepKeepsTheInvariant := by
  intro s t inv hstep
  obtain ⟨-, same⟩ | ⟨_, _, _, _, faulted⟩ | ⟨i, h⟩ := step_cases s
  · cases same.symm.trans hstep
    exact inv
  · cases faulted.symm.trans hstep
    exact enterFault_inv ..
  obtain ⟨f, rfl⟩ | ⟨u, answer, running, rfl⟩ := h.cases hstep
  · exact enterFault_inv ..
  have effect := effect_of_exec answer running
  have fetched := h.fetch
  have advanced : s.beginCycle.advance.pc.toNat = s.pc.toNat + 2 := by
    show (s.pc + 2).toNat = s.pc.toNat + 2
    bv_omega
  have pcUpper : s.beginCycle.advance.pc.toNat ≤ 0x1000 := by omega
  have live : s.beginCycle.advance.LiveBounded := inv.stack h.running
  have pcRange := exec_pc_le answer running pcUpper live inv.sp (by omega)
  obtain ⟨spRange, stack⟩ := exec_keeps_stack answer running pcUpper live inv.sp
  exact {
    mem := effect.wf inv.mem
    sp := spRange
    faultIff := effect.halted.trans (inv.faultIff.trans (congrArg Option.isSome effect.fault.symm))
    code := fun r hr => inv.code r (effect.fault.symm.trans hr)
    silent := fun halted => absurd (running.symm.trans halted) Bool.false_ne_true
    pc := fun _ => pcRange
    stack := fun _ => stack }

end Sys2Proof.Machine
end

section
/-! PROOFS. The host's operations between cycles (spec/10_state.md §11, spec/70_reset_and_hazards.md §2): every write
of the host is one block write, which changes memory alone or enters a fault. -/

namespace Sys2Proof.Machine

/-! ### Block writes of the host -/

/-- A one-byte write is the write of a block of one byte. -/
theorem State.hostStore_eq_hostStoreBlock (s : State) (a : Nat) (v : Byte) :
    s.hostStore a v = s.hostStoreBlock [v] a := by
  cases h : s.hostStore a v <;> simp only [State.hostStoreBlock, h]

theorem State.hostStoreBlock_wrote {s t : State} {vs : List Byte} {a : Nat} (h : s.hostStoreBlock vs a = .ok t) :
    s.HostWrote t a vs := by
  by_cases hv : vs = []
  · subst hv
    cases h
    exact ⟨rfl, fun b => (if_neg (by simp only [List.length_nil]; omega)).symm, id⟩
  by_cases ha : a + vs.length ≤ Config.memSize
  · obtain ⟨u, hu, wrote⟩ := State.hostStoreBlock_ok vs s a ha
    cases hu.symm.trans h
    exact wrote
  · cases (State.hostStoreBlock_error vs s a hv (Nat.lt_of_not_le ha)).symm.trans h

/-- A block write of the host that fits, as a whole operation (R53). -/
theorem State.orHostFault_ok {s : State} {vs : List Byte} {a : Nat} (h : a + vs.length ≤ Config.memSize) :
    s.HostWrote (s.orHostFault (s.hostStoreBlock vs a)) a vs := by
  obtain ⟨t, ht, wrote⟩ := State.hostStoreBlock_ok vs s a h
  rw [ht]
  exact wrote

/-- A block write of the host that does not fit faults at its first invalid address (R53, R308, R345). -/
theorem State.orHostFault_error {s : State} {vs : List Byte} {a : Nat} (hv : vs ≠ [])
    (h : Config.memSize < a + vs.length) :
    Faulted (.memOutOfBounds (max a Config.memSize)) s.pc none (s.orHostFault (s.hostStoreBlock vs a)) := by
  rw [State.hostStoreBlock_error vs s a hv h]
  exact enterFault_faulted ..

/-! ### The invariant -/

theorem State.HostWrote.inv {s t : State} {a : Nat} {vs : List Byte} (w : s.HostWrote t a vs) (inv : s.Inv) :
    t.Inv := by
  rw [w.rest]
  exact { inv with mem := w.wf inv.mem }

theorem State.orHostFault_inv {s : State} (inv : s.Inv) (vs : List Byte) (a : Nat) :
    (s.orHostFault (s.hostStoreBlock vs a)).Inv := by
  cases h : s.hostStoreBlock vs a with
  | ok t => exact (State.hostStoreBlock_wrote h).inv inv
  | error f => exact enterFault_inv f s.pc none s

theorem State.hostRead_inv {s : State} (inv : s.Inv) (a : Nat) : (s.hostRead a).2.Inv := by
  rw [State.hostRead]
  split
  · exact inv
  · exact enterFault_inv ..

/-- Settles O17: a cycle by O16, and every other operation is the reset, a write of a key or of memory, which the
invariant does not bound but by its form, or a fault entry. -/
theorem hostOperationsKeepTheInvariant : Obligations.HostOperationsKeepTheInvariant := by
  intro op s t inv h
  cases op
  case cycle => exact stepKeepsTheInvariant s t inv h
  all_goals cases h
  case reset => exact reset_inv s.draws
  case setKey => exact { inv with }
  case read a => exact s.hostRead_inv inv a
  case write a v =>
    rw [State.hostWrite, State.hostStore_eq_hostStoreBlock]
    exact State.orHostFault_inv inv [v] a
  case write2 a w => exact State.orHostFault_inv inv [hiByte w, loByte w] a
  case load p => exact State.orHostFault_inv inv (loadedBytes p) Config.entry.toNat

/-! ### The memory port -/

theorem hiByte_toNat (w : Word) : (hiByte w).toNat = w.toNat / 256 := by
  have := w.isLt
  simp only [hiByte, BitVec.extractLsb'_toNat]
  omega

theorem loByte_toNat (w : Word) : (loByte w).toNat = w.toNat % 256 := by
  simp only [loByte, BitVec.extractLsb'_toNat, Nat.shiftRight_zero, Nat.reducePow]

theorem State.HostWrote.read_one {s t : State} {a : Nat} {v : Byte} (w : s.HostWrote t a [v]) (b : Nat) :
    t.mem.read b = if b = a then v else s.mem.read b := by
  rw [w.read]
  by_cases h : b = a
  · subst h
    simp
  · rw [if_neg h, if_neg (by simp only [List.length_singleton]; omega)]

theorem State.HostWrote.read_two {s t : State} {a : Nat} {v w : Byte} (h : s.HostWrote t a [v, w]) (b : Nat) :
    t.mem.read b = if b = a then v else if b = a + 1 then w else s.mem.read b := by
  rw [h.read]
  by_cases first : b = a
  · subst first
    simp
  by_cases second : b = a + 1
  · subst second
    simp
  · rw [if_neg first, if_neg second, if_neg (by simp only [List.length_cons, List.length_nil]; omega)]

theorem State.hostRead_ok {s : State} {a : Nat} (h : a < Config.memSize) :
    s.hostRead a = (some (s.mem.read a), s) := by
  rw [State.hostRead, s.memRead_ok h]

theorem State.hostRead_error {s : State} {a : Nat} (h : Config.memSize ≤ a) :
    s.hostRead a = (none, enterFault (.memOutOfBounds a) s.pc none s) := by
  rw [State.hostRead, s.memRead_error h]

/-- Settles O56: the two forms of a write are blocks of one and of two bytes. -/
theorem hostMemoryPortIsBoundsChecked : Obligations.HostMemoryPortIsBoundsChecked := by
  intro s a v w
  simp only [hostStep, State.hostWrite, State.hostWrite2, State.hostStore_eq_hostStoreBlock]
  refine ⟨fun inside => ⟨State.hostRead_ok (Nat.lt_succ_of_le inside), _, rfl, ?_⟩, fun inside => ⟨_, rfl, ?_⟩,
    fun outside => ⟨?_, ⟨_, rfl, ?_⟩, _, rfl, ?_⟩, fun outside => ⟨_, rfl, ?_⟩⟩
  · have wrote := s.orHostFault_ok (vs := [v]) (Nat.succ_le_succ inside)
    exact ⟨wrote.rest, wrote.read_one⟩
  · have wrote := s.orHostFault_ok (vs := [hiByte w, loByte w]) (Nat.succ_le_succ inside)
    refine ⟨wrote.rest, fun b => ?_⟩
    rw [wrote.read_two, apply_ite BitVec.toNat, apply_ite BitVec.toNat, hiByte_toNat, loByte_toNat]
  · rw [State.hostRead_error outside]
  · rw [State.hostRead_error outside]
    exact enterFault_faulted ..
  · have faulted := s.orHostFault_error (vs := [v]) (List.cons_ne_nil _ _) (Nat.succ_lt_succ outside)
    rwa [Nat.max_eq_left (show Config.memSize ≤ a from outside)] at faulted
  · rw [← firstInvalid]
    exact State.orHostFault_error (List.cons_ne_nil _ _) (Nat.succ_lt_succ outside)

/-! ### The program load and the reset -/

theorem length_loadedBytes (p : List Byte) : (loadedBytes p).length = 2 * (p.length / 2) := by
  rw [loadedBytes, List.length_take]
  omega

/-- The bytes kept are those of the image (R344). -/
theorem getD_loadedBytes {p : List Byte} {k : Nat} (h : k < 2 * (p.length / 2)) :
    (loadedBytes p).getD k 0 = p.getD k 0 := by
  simp [loadedBytes, List.getD, h]

/-- Settles O57: the load is one block write of the kept bytes at 0x200, from where 0xE00 bytes fit. -/
theorem programLoadDropsTheOddByte : Obligations.ProgramLoadDropsTheOddByte := by
  intro s p
  have length := length_loadedBytes p
  refine ⟨fun fits => ⟨_, rfl, ?_⟩, fun tooLong => ⟨_, rfl, ?_⟩⟩
  · have wrote : s.HostWrote (s.loadProgram p) 0x200 (loadedBytes p) :=
      State.orHostFault_ok (by rw [length]; show 512 + _ ≤ 4096; omega)
    refine ⟨wrote.rest, fun a => ?_⟩
    rw [wrote.read, length]
    split_ifs with loaded
    · exact getD_loadedBytes (by omega)
    · rfl
  · have someByte : loadedBytes p ≠ [] := fun h => by simp only [h, List.length_nil] at length; omega
    exact State.orHostFault_error someByte (by rw [length]; show 4096 < 512 + _; omega)

/-- Settles O58: the reset input is defined as the reset state with the counter kept. -/
theorem resetInputRestoresTheResetState : Obligations.ResetInputRestoresTheResetState := fun _ => ⟨_, rfl, rfl⟩

end Sys2Proof.Machine
end

section
/-! PROOFS. The memory instructions (spec/43_memory_ops.md rules R217 to R219, spec/20_memory.md rules R64 and R66): the
block each one reads or writes, inside memory and past it. -/

namespace Sys2Proof.Machine

/-- Settles O22: the first invalid address of a block is the larger of I and 0x1000. -/
theorem blockPastMemoryFaults : Obligations.BlockPastMemoryFaults := by
  intro s
  simp only [← firstInvalid]
  exact ⟨fun x past => faulted_of_exec_eq_raise (execLdB_fault x s past),
    fun x past => ⟨faulted_of_exec_eq_raise (execLdMemVx_fault x s past),
      faulted_of_exec_eq_raise (execLdVxMem_fault x s past)⟩,
    fun x y n past => faulted_of_exec_eq_raise (execDrw_fault x y n s past)⟩

/-- Inside memory the framebuffer is all from 0xF00 on (R72). -/
theorem inFramebuffer_of_le {a : Nat} (h : a ≤ 0xFFF) : inFramebuffer a = decide (0xF00 ≤ a) := by
  rw [Bool.eq_iff_iff, inFramebuffer_iff, decide_eq_true_iff]
  exact and_iff_left h

/-- Settles O41: the write inside memory is one store, whose side effect looks at the address alone. -/
theorem memWriteStoresOneByte : Obligations.MemWriteStoresOneByte := fun s a v =>
  ⟨fun outside => s.memWrite_error v outside, fun inside =>
    ⟨s.store a v, s.memWrite_ok v (Nat.lt_succ_of_le inside), Memory.read_write_same s.mem a v,
      fun _ other => Memory.read_write_ne s.mem v other,
      by rw [State.store_displayChanged, inFramebuffer_of_le inside],
      fun _ => rfl, rfl, rfl, ⟨rfl, rfl, rfl, rfl, rfl, rfl⟩, rfl, rfl⟩⟩

/-- Settles O45: the block written is the three digits. -/
theorem decimalDigitsAreStored : Obligations.DecimalDigitsAreStored := by
  intro x s inside
  obtain ⟨t, answer, wrote⟩ := execLdB_ok x s inside
  have digit {k : Nat} (hk : k < 3) : t.mem.read (s.i.toNat + k) = (bcdDigits (s.getV x)).getD k 0 :=
    wrote.read_at hk
  exact ⟨t, answer, (congrArg BitVec.toNat (digit (k := 0) (by decide))).trans (bcdDigits_hundreds _),
    by rw [digit (by decide), bcdDigits_tens], by rw [digit (by decide), bcdDigits_ones],
    wrote.changed_iff (bcdDigits_length _) inside, wrote.onlyVAndMem⟩

/-- Settles O46: the block written is V0..VX. -/
theorem registerBlockIsStored : Obligations.RegisterBlockIsStored := by
  intro x s inside
  obtain ⟨t, answer, wrote⟩ := execLdMemVx_ok x s inside
  have length := s.regBlock_length x
  refine ⟨t, answer, fun k hk => ?_, wrote.changed_iff length inside, length ▸ wrote.onlyVAndMem⟩
  have inBlock : k.val < (s.regBlock x).length := length ▸ Nat.lt_succ_of_le hk
  rw [wrote.read_at inBlock, s.regBlock_getD hk]

/-- Settles O47: the block read goes to V0..VX, and the load is an update of the registers alone. -/
theorem registerBlockIsLoaded : Obligations.RegisterBlockIsLoaded := fun x s inside =>
  ⟨_, execLdVxMem_ok x s inside, fun _ => s.setRegBlock_bytes_le s.i.toNat, fun _ => s.setRegBlock_bytes_gt s.i.toNat,
    s.setRegBlock_i _, s.setRegBlock_pc _,
    ⟨s.setRegBlock_sp _, s.setRegBlock_stack _, s.setRegBlock_key _, s.setRegBlock_beep _, s.setRegBlock_halted _,
      s.setRegBlock_fault _⟩,
    ⟨s.setRegBlock_dt _, s.setRegBlock_st _⟩, fun a => congrArg (·.read a) (s.setRegBlock_mem _),
    s.setRegBlock_displayChanged _⟩

end Sys2Proof.Machine
end

section
/-! PROOFS. Drawing (spec/44_graphics.md rules R242 to R247): one draw toggles the pixels under the sprite, and two
equal draws toggle them back. -/

namespace Sys2Proof.Machine

/-! ### One draw -/

/-- The sprite DXYN draws, as the set of the pixels under its 1 bits (R242 to R244, R247). -/
def State.spriteAt (s : State) (x y : Reg) (n : Count) : Nat → Nat → Bool :=
  spriteBit (s.bytes s.i.toNat (n.val + 1)) (spriteCol (s.getV x)) (spriteRow (s.getV y))

/-- What DXYN did between `s` and `t`: the pixels toggled, the collision, and the frame (R243, R245, R246). -/
structure Drawn (x y : Reg) (n : Count) (s t : State) : Prop where
  toggled : ∀ px py, px < 64 → py < 32 → t.mem.pixel px py = (s.mem.pixel px py ^^ s.spriteAt x y n px py)
  flag : t.getV VF = 0 ∨ t.getV VF = 1
  collision : t.getV VF = 1 ↔
    ∃ px py, px < 64 ∧ py < 32 ∧ s.spriteAt x y n px py = true ∧ s.mem.pixel px py = true
  displayChanged : t.displayChanged = true
  frame : OnlyVAndMem [VF] 0xF00 256 s t

theorem collisionFlag_eq_one_iff (c : Bool) : collisionFlag c = 1 ↔ c = true := by
  cases c <;> decide

theorem collisionFlag_eq (c : Bool) : collisionFlag c = 0 ∨ collisionFlag c = 1 := by
  cases c <;> decide

/-- A draw followed by the write of VF keeps the frame of DXYN. -/
theorem State.Drew.onlyVAndMem {s t : State} (h : s.Drew t) (b : Byte) :
    OnlyVAndMem [VF] 0xF00 256 s (t.setV VF b) := by
  have rest := h.rest
  refine ⟨fun r hr => ?_, ?_, ?_, ⟨?_, ?_, ?_, ?_, ?_, ?_⟩, ⟨?_, ?_⟩, h.outside⟩
  · rw [State.getV_setV_ne _ b (List.ne_of_not_mem_cons hr)]
    exact State.getV_congr (by rw [rest]) r
  all_goals
    rw [rest]
    rfl

/-- DXYN inside memory (R243 to R247). -/
theorem exec_drw_drawn (x y : Reg) (n : Count) {s : State} (inside : s.i.toNat + n.val ≤ 0xFFF) :
    ∃ t, exec (.drw x y n) s = .next t ∧ Drawn x y n s t := by
  obtain ⟨toggled, collided⟩ := drawRows_spec (spriteCol (s.getV x)) (s.bytes s.i.toNat (Config.spriteRows n))
    (spriteRow (s.getV y)) (s, false)
  have vf (b : Byte) : State.getV { (drawn x y n s).1.setV VF b with displayChanged := true } VF = b :=
    State.getV_setV_same _ VF b
  have noEarlier := collided.trans (or_iff_right (show ¬ false = true from Bool.false_ne_true))
  refine ⟨_, execDrw_ok x y n s inside, toggled, ?_, ?_, rfl,
    ((drawn_drew x y n s).onlyVAndMem _).set_displayChanged true⟩
  · rw [vf]
    exact collisionFlag_eq _
  · rw [vf, collisionFlag_eq_one_iff]
    exact noEarlier

/-- Settles O49: it is what DXYN inside memory does. -/
theorem drawTogglesTheSpritePixels : Obligations.DrawTogglesTheSpritePixels := by
  intro x y n s inside
  obtain ⟨t, answer, drew⟩ := exec_drw_drawn x y n inside
  exact ⟨t, answer, drew.toggled, drew.flag, drew.collision, drew.displayChanged, drew.frame⟩

/-! ### Two equal draws -/

/-- A frame without the coordinates' registers and outside the sprite's bytes leaves the sprite where and what it
was. -/
theorem OnlyVAndMem.spriteAt_eq {x y : Reg} {n : Count} {s t : State} (frame : OnlyVAndMem [VF] 0xF00 256 s t)
    (hx : x ≠ VF) (hy : y ≠ VF) (below : s.i.toNat + n.val < 0xF00) : t.spriteAt x y n = s.spriteAt x y n := by
  have bytes : t.bytes t.i.toNat (n.val + 1) = s.bytes s.i.toNat (n.val + 1) := by
    rw [frame.i]
    refine List.map_congr_left fun k hk => frame.mem _ (.inl ?_)
    have := List.mem_range.mp hk
    omega
  rw [State.spriteAt, bytes, frame.v x (by simpa using hx), frame.v y (by simpa using hy), State.spriteAt]

/-- Settles O50: the second draw toggles the same pixels, which were set before it exactly when they were clear before
the first. -/
theorem drawingTwiceErases : Obligations.DrawingTwiceErases := by
  intro x y n s hx hy below
  obtain ⟨t, first, drew⟩ := exec_drw_drawn x y n (s := s) (by omega)
  have sprite : t.spriteAt x y n = s.spriteAt x y n := drew.frame.spriteAt_eq hx hy below
  have sameI : t.i = s.i := drew.frame.i
  obtain ⟨u, second, redrew⟩ := exec_drw_drawn x y n (s := t) (by rw [sameI]; omega)
  refine ⟨t, u, first, second, fun a => ?_, redrew.collision.trans ?_⟩
  · by_cases screen : a < 0xF00 ∨ 0xF00 + 256 ≤ a
    · exact (redrew.frame.mem a screen).trans (drew.frame.mem a screen)
    · refine framebuffer_ext (fun px py hpx hpy => ?_) (a := a) ?_ ?_
      · rw [redrew.toggled px py hpx hpy, drew.toggled px py hpx hpy, sprite, Bool.xor_assoc, Bool.xor_self,
          Bool.xor_false]
      · show 0xF00 ≤ a
        omega
      · show a < 0xF00 + 256
        omega
  · refine exists_congr fun px => exists_congr fun py => and_congr_right fun hpx => and_congr_right fun hpy => ?_
    rw [sprite, drew.toggled px py hpx hpy, and_comm]
    show _ ↔ s.mem.pixel px py = false ∧ s.spriteAt x y n px py = true
    refine and_congr_left fun on => ?_
    rw [on, Bool.xor_true, Bool.not_eq_true']

end Sys2Proof.Machine
end
